-- ==== Sys2Proof/Word.lean ====
section
/-!
DEFINITION. The 32-bit word, the 64-bit counter and the two conversions of 00_scope.md R8.
-/

namespace Sys2Proof

/-- A program-store cell or a stack word: 32 bits, read as unsigned (R6, R7). -/
abbrev Word := BitVec 32

/-- The width of `steps` and `step_budget`: 64 bits, unsigned (R6, R29, R30). -/
abbrev Count := BitVec 64

/-- `u32(i)` of R8: i mod 2^32. -/
def u32 (i : Int) : Word := BitVec.ofInt 32 i

/-- `s32(v)` of R8: the two's complement reading of v. -/
def s32 (v : Word) : Int := v.toInt

end Sys2Proof
end

