-- ==== Sys2Proof/Syntax.lean ====
section
/-!
DEFINITION. The 27 mnemonics of 30_encoding.md R70 and the instructions of spec/opcode_table.json.
-/

namespace Sys2Proof

/-- The opcode tags, in the order of the source's enumeration (R70). -/
inductive Mnemonic where
  | nop
  | halt
  | push
  | print
  | swap
  | dup
  | ovr
  | inc
  | add
  | sub
  | mod
  | mul
  | rand
  | dec
  | drop
  | je
  | jne
  | jump
  | and
  | or
  | xor
  | shl
  | shr
  | rot
  | sqrt
  | pick
  | brk
  deriving DecidableEq, Repr

/-- One constructor per row of the opcode table. The immediate of a two-cell instruction is the signed
number of R67; `brk` is the explicit `Break` opcode, and `unrecognized w` is the table's fallback row: the
opcode cell w that no mnemonic has (R71). -/
inductive Instr where
  /-- `Nop`, R110. -/
  | nop
  /-- `Halt`, R111. -/
  | halt
  /-- `Push`, R113. -/
  | push (imm : Int)
  /-- `Print`, R135. -/
  | print
  /-- `Swap`, R116. -/
  | swap
  /-- `Dup`, R115. -/
  | dup
  /-- `Over`, R117. -/
  | ovr
  /-- `Inc`, R120. -/
  | inc
  /-- `Add`, R122. -/
  | add
  /-- `Sub`, R123. -/
  | sub
  /-- `Mod`, R125. -/
  | mod
  /-- `Mul`, R124. -/
  | mul
  /-- `Rand`, R136. -/
  | rand
  /-- `Dec`, R121. -/
  | dec
  /-- `Drop`, R114. -/
  | drop
  /-- `JE`, R132. -/
  | je (imm : Int)
  /-- `JNE`, R133. -/
  | jne (imm : Int)
  /-- `Jump`, R134. -/
  | jump (imm : Int)
  /-- `And`, R127. -/
  | and
  /-- `Or`, R128. -/
  | or
  /-- `Xor`, R129. -/
  | xor
  /-- `SHL`, R130. -/
  | shl
  /-- `SHR`, R131. -/
  | shr
  /-- `Rot`, R118. -/
  | rot
  /-- `SQRT`, R126. -/
  | sqrt
  /-- `Pick`, R119. -/
  | pick
  /-- `Break`, R112. -/
  | brk
  /-- A cell outside the closed set, R71. -/
  | unrecognized (cell : Word)
  deriving DecidableEq, Repr

/-- What `FetchDecode` hands to dispatch (R80): an instruction, or one of the two `Break` decodings that stand
for no instruction of the table. -/
inductive Decoded where
  /-- A decoded instruction. -/
  | instr (i : Instr)
  /-- The `Break` decoding of an out-of-range pc (R81). -/
  | pcOutOfRange
  /-- The `Break` decoding of a two-cell opcode in the last cell (R83). -/
  | truncated
  deriving DecidableEq, Repr

end Sys2Proof
end

