-- ==== Sys2Proof/Config.lean ====
section
/-!
DEFINITION. What an implementation fixes (00_scope.md R6), as plain data, and the values the spec leaves free.
A free value is a constant with no body: nothing can be proved about it, so a claim holds for every value.
-/

namespace Sys2Proof

/-- OPCODE_MAP: the 32-bit opcode value of each mnemonic (R6, R70). -/
structure OpcodeMap where
  nop : Word
  halt : Word
  push : Word
  print : Word
  swap : Word
  dup : Word
  ovr : Word
  inc : Word
  add : Word
  sub : Word
  mod : Word
  mul : Word
  rand : Word
  dec : Word
  drop : Word
  je : Word
  jne : Word
  jump : Word
  and : Word
  or : Word
  xor : Word
  shl : Word
  shr : Word
  rot : Word
  sqrt : Word
  pick : Word
  brk : Word
  deriving DecidableEq, Repr

/-- The OPEN parameters of R6. -/
structure Config where
  /-- PROGRAM_SIZE. -/
  programSize : Nat
  /-- STACK_CAPACITY. -/
  stackCapacity : Nat
  /-- OPCODE_MAP. -/
  opcodeMap : OpcodeMap
  deriving DecidableEq, Repr

/-- FREE VALUE (log 4). What a program-store cell the host did not load holds: R49 calls it a draw, fixed
for the run. The arguments are the power-on and the cell index. -/
opaque Config.unloadedCell : Nat → Nat → Word

/-- FREE VALUE (log 5). What a stack entry that no push of the run wrote holds, and what the host reads
above sp (R27, R39, R162). The arguments are the power-on and the entry index. -/
opaque Config.unspecifiedEntry : Nat → Nat → Word

/-- FREE VALUE (log 9). The random source's value for a `Rand` step (R13, R136). The argument is the number
of draws taken before. -/
opaque Config.randDraw : Nat → Word

/-- FREE VALUE (log 10). SHIFT_LARGE, the result of a shift by 32 or more (R6, R130, R131). The argument is
the number of draws taken before. -/
opaque Config.shiftLarge : Nat → Word

end Sys2Proof
end

