-- ==== Sys2Proof/Decode.lean ====
section
/-!
DEFINITION. The decoder and the encoder of 30_encoding.md, over any OPCODE_MAP.
-/

namespace Sys2Proof

/-- The spec's default OPCODE_MAP: the position in the source's enumeration (R70). -/
def defaultOpcodeMap : OpcodeMap :=
  { nop := 0, halt := 1, push := 2, print := 3, swap := 4, dup := 5, ovr := 6,
    inc := 7, add := 8, sub := 9, mod := 10, mul := 11, rand := 12, dec := 13,
    drop := 14, je := 15, jne := 16, jump := 17, and := 18, or := 19, xor := 20,
    shl := 21, shr := 22, rot := 23, sqrt := 24, pick := 25, brk := 26 }

/-- `OPCODE_MAP(m)` (R70). -/
def opcodeOf (map : OpcodeMap) : Mnemonic → Word
  | .nop => map.nop
  | .halt => map.halt
  | .push => map.push
  | .print => map.print
  | .swap => map.swap
  | .dup => map.dup
  | .ovr => map.ovr
  | .inc => map.inc
  | .add => map.add
  | .sub => map.sub
  | .mod => map.mod
  | .mul => map.mul
  | .rand => map.rand
  | .dec => map.dec
  | .drop => map.drop
  | .je => map.je
  | .jne => map.jne
  | .jump => map.jump
  | .and => map.and
  | .or => map.or
  | .xor => map.xor
  | .shl => map.shl
  | .shr => map.shr
  | .rot => map.rot
  | .sqrt => map.sqrt
  | .pick => map.pick
  | .brk => map.brk

/-- Every mnemonic once, in the order of R70. -/
def allMnemonics : List Mnemonic :=
  [.nop, .halt, .push, .print, .swap, .dup, .ovr, .inc, .add,
   .sub, .mod, .mul, .rand, .dec, .drop, .je, .jne, .jump,
   .and, .or, .xor, .shl, .shr, .rot, .sqrt, .pick, .brk]

/-- The mnemonic's spelling (R70, R76). -/
def mnemonicName : Mnemonic → String
  | .nop => "Nop"
  | .halt => "Halt"
  | .push => "Push"
  | .print => "Print"
  | .swap => "Swap"
  | .dup => "Dup"
  | .ovr => "Over"
  | .inc => "Inc"
  | .add => "Add"
  | .sub => "Sub"
  | .mod => "Mod"
  | .mul => "Mul"
  | .rand => "Rand"
  | .dec => "Dec"
  | .drop => "Drop"
  | .je => "JE"
  | .jne => "JNE"
  | .jump => "Jump"
  | .and => "And"
  | .or => "Or"
  | .xor => "Xor"
  | .shl => "SHL"
  | .shr => "SHR"
  | .rot => "Rot"
  | .sqrt => "SQRT"
  | .pick => "Pick"
  | .brk => "Break"

/-- The opcode lookup of `FetchDecode` (R65, R80): all 32 bits of the cell are compared. -/
def lookupOpcode (map : OpcodeMap) (w : Word) : Option Mnemonic :=
  allMnemonics.find? fun m => opcodeOf map m = w

/-- A one-cell mnemonic's instruction; `none` for the four two-cell mnemonics (R64, R66). -/
def oneCellInstr : Mnemonic → Option Instr
  | .nop => some .nop
  | .halt => some .halt
  | .push => none
  | .print => some .print
  | .swap => some .swap
  | .dup => some .dup
  | .ovr => some .ovr
  | .inc => some .inc
  | .add => some .add
  | .sub => some .sub
  | .mod => some .mod
  | .mul => some .mul
  | .rand => some .rand
  | .dec => some .dec
  | .drop => some .drop
  | .je => none
  | .jne => none
  | .jump => none
  | .and => some .and
  | .or => some .or
  | .xor => some .xor
  | .shl => some .shl
  | .shr => some .shr
  | .rot => some .rot
  | .sqrt => some .sqrt
  | .pick => some .pick
  | .brk => some .brk

/-- The two-cell instruction of a mnemonic and its immediate; for any other mnemonic the immediate plays no
part (it is not reached from the decoder). -/
def twoCellInstr (m : Mnemonic) (imm : Int) : Instr :=
  match m with
  | .nop => .nop
  | .halt => .halt
  | .push => .push imm
  | .print => .print
  | .swap => .swap
  | .dup => .dup
  | .ovr => .ovr
  | .inc => .inc
  | .add => .add
  | .sub => .sub
  | .mod => .mod
  | .mul => .mul
  | .rand => .rand
  | .dec => .dec
  | .drop => .drop
  | .je => .je imm
  | .jne => .jne imm
  | .jump => .jump imm
  | .and => .and
  | .or => .or
  | .xor => .xor
  | .shl => .shl
  | .shr => .shr
  | .rot => .rot
  | .sqrt => .sqrt
  | .pick => .pick
  | .brk => .brk

/-- Whether decoding the opcode cell `w` reads a second cell (R47, R66): only a recognized two-cell opcode
does. -/
def needsImmediate (map : OpcodeMap) (w : Word) : Bool :=
  match lookupOpcode map w with
  | none => false
  | some m => (oneCellInstr m).isNone

/-- The decoder, total on any cells (R79), in the order of checks of R86: no cell, then the opcode lookup,
then the missing second cell of a two-cell opcode. -/
def decode (map : OpcodeMap) : List Word → Decoded
  | [] => .pcOutOfRange
  | w :: rest =>
    match lookupOpcode map w with
    | none => .instr (.unrecognized w)
    | some m =>
      match oneCellInstr m with
      | some i => .instr i
      | none =>
        match rest with
        | [] => .truncated
        | v :: _ => .instr (twoCellInstr m (s32 v))

/-- The opcode tag an instruction dispatches on: an unrecognized cell has the `Break` tag (R71, R104). -/
def instrTag : Instr → Mnemonic
  | .nop => .nop
  | .halt => .halt
  | .push _ => .push
  | .print => .print
  | .swap => .swap
  | .dup => .dup
  | .ovr => .ovr
  | .inc => .inc
  | .add => .add
  | .sub => .sub
  | .mod => .mod
  | .mul => .mul
  | .rand => .rand
  | .dec => .dec
  | .drop => .drop
  | .je _ => .je
  | .jne _ => .jne
  | .jump _ => .jump
  | .and => .and
  | .or => .or
  | .xor => .xor
  | .shl => .shl
  | .shr => .shr
  | .rot => .rot
  | .sqrt => .sqrt
  | .pick => .pick
  | .brk => .brk
  | .unrecognized _ => .brk

/-- The instruction's length in cells (R66, R71). -/
def instrLen : Instr → Nat
  | .nop => 1
  | .halt => 1
  | .push _ => 2
  | .print => 1
  | .swap => 1
  | .dup => 1
  | .ovr => 1
  | .inc => 1
  | .add => 1
  | .sub => 1
  | .mod => 1
  | .mul => 1
  | .rand => 1
  | .dec => 1
  | .drop => 1
  | .je _ => 2
  | .jne _ => 2
  | .jump _ => 2
  | .and => 1
  | .or => 1
  | .xor => 1
  | .shl => 1
  | .shr => 1
  | .rot => 1
  | .sqrt => 1
  | .pick => 1
  | .brk => 1
  | .unrecognized _ => 1

/-- The immediate, absent for a decoded instruction of length 1 (R67). -/
def instrImm : Instr → Option Int
  | .nop => none
  | .halt => none
  | .push imm => some imm
  | .print => none
  | .swap => none
  | .dup => none
  | .ovr => none
  | .inc => none
  | .add => none
  | .sub => none
  | .mod => none
  | .mul => none
  | .rand => none
  | .dec => none
  | .drop => none
  | .je imm => some imm
  | .jne imm => some imm
  | .jump imm => some imm
  | .and => none
  | .or => none
  | .xor => none
  | .shl => none
  | .shr => none
  | .rot => none
  | .sqrt => none
  | .pick => none
  | .brk => none
  | .unrecognized _ => none

/-- `Encode` of R78; an unrecognized cell stands for itself. -/
def encode (map : OpcodeMap) : Instr → List Word
  | .nop => [map.nop]
  | .halt => [map.halt]
  | .push imm => [map.push, u32 imm]
  | .print => [map.print]
  | .swap => [map.swap]
  | .dup => [map.dup]
  | .ovr => [map.ovr]
  | .inc => [map.inc]
  | .add => [map.add]
  | .sub => [map.sub]
  | .mod => [map.mod]
  | .mul => [map.mul]
  | .rand => [map.rand]
  | .dec => [map.dec]
  | .drop => [map.drop]
  | .je imm => [map.je, u32 imm]
  | .jne imm => [map.jne, u32 imm]
  | .jump imm => [map.jump, u32 imm]
  | .and => [map.and]
  | .or => [map.or]
  | .xor => [map.xor]
  | .shl => [map.shl]
  | .shr => [map.shr]
  | .rot => [map.rot]
  | .sqrt => [map.sqrt]
  | .pick => [map.pick]
  | .brk => [map.brk]
  | .unrecognized w => [w]

/-- A program is the concatenation of its instructions' cells (R78). -/
def encodeProgram (map : OpcodeMap) (program : List Instr) : List Word :=
  program.flatMap (encode map)

/-- The label shorthand of R76: at index `p` the operand naming index `target` is the immediate
target - p - 2. -/
def labelImm (p target : Nat) : Int := (target : Int) - (p : Int) - 2

/-- The two cells of an opcode-table word: cell k is bits 32k+31 .. 32k of `w`, the bits above `nbits`
are 0 (log 3). -/
def tableCells (nbits w : Nat) : List Word :=
  [BitVec.ofNat 32 (w % 2 ^ nbits), BitVec.ofNat 32 (w % 2 ^ nbits / 2 ^ 32)]

/-- The instruction this decoder reads from an opcode-table word, under the default map. -/
def decodeTableWord (nbits w : Nat) : Option Instr :=
  match decode defaultOpcodeMap (tableCells nbits w) with
  | .instr i => some i
  | .pcOutOfRange => none
  | .truncated => none

end Sys2Proof
end

