-- ==== Sys2Proof/Machine/Memory.lean ====
section
/-!
DEFINITION. The storage of the two spaces of 20_memory.md R45, as plain data: the listed (index, word) pairs,
indices strictly rising. The unit is one whole 32-bit cell (R46, log 3). An entry is listed when it has been
written; what an unlisted one reads as is said where each space is read (Machine/Ops.lean).
-/

namespace Sys2Proof.Machine

/-- The written entries of a space, by index. -/
abbrev Memory := List (Nat × Word)

/-- The canonical form: indices strictly rising, so no index is listed twice. Values are not constrained,
because an unlisted entry holds a free value that no listed one can be compared with (log 3). -/
abbrev Memory.wf (m : Memory) : Prop := m.Pairwise fun e f => e.1 < f.1

/-- The written value at an index, or `none` where nothing was written. -/
def memRead (m : Memory) (a : Nat) : Option Word :=
  match m with
  | [] => none
  | (k, v) :: rest => if k = a then some v else memRead rest a

/-- Write one entry, keeping the indices rising. -/
def memWrite (m : Memory) (a : Nat) (v : Word) : Memory :=
  match m with
  | [] => [(a, v)]
  | (k, w) :: rest =>
    if a < k then (a, v) :: (k, w) :: rest
    else if a = k then (a, v) :: rest
    else (k, w) :: memWrite rest a v

/-- Write the cells from index `a` on, those of them below `size`. -/
def placeCells (size a : Nat) (cells : List Word) (m : Memory) : Memory :=
  match cells with
  | [] => m
  | c :: rest => placeCells size (a + 1) rest (if a < size then memWrite m a c else m)

end Sys2Proof.Machine
end

