-- ==== Sys2Proof/Machine/State.lean ====
section
/-!
DEFINITION. The machine's state (10_state.md), the reasons a step can stop, and the state at run start.
-/

namespace Sys2Proof.Machine

/-- The run state of R28. -/
inductive RunState where
  | running
  | halted
  | brk
  deriving DecidableEq, Repr

/-- The break causes of R141, in code order. -/
inductive BreakCause where
  /-- `NONE`: no error in this run. -/
  | noCause
  | pcOutOfRange
  | truncatedInstruction
  | stackOverflow
  | stackUnderflow
  | invalidPickDepth
  | divisionByZero
  | unrecognizedOpcode
  | explicitBreak
  deriving DecidableEq, Repr

/-- The dispatch strategies of R31. -/
inductive Strategy where
  /-- Strategy A, the central loop (R100). -/
  | centralLoop
  /-- Strategy B, handler-chained (R101). -/
  | handlerChained
  deriving DecidableEq, Repr

/-- Everything the spec gives the block: the record of R20, the run inputs, and the interface of R39. -/
structure State where
  /-- PROGRAM_SIZE, STACK_CAPACITY and OPCODE_MAP (R6); no step writes them. -/
  cfg : Config
  /-- The program-store cells the host has loaded (R45, R49). -/
  prog : Memory
  /-- Program counter, a cell index (R22). -/
  pc : Word
  /-- Signed index of the top entry, -1 when empty (R25). -/
  sp : Word
  /-- The operand-stack entries written in this run, by index (R26). -/
  stack : Memory
  /-- `state` (R28). -/
  runState : RunState
  /-- Executed-step counter (R29). -/
  steps : Count
  /-- Break cause (R32). -/
  cause : BreakCause
  /-- The step budget sampled at `start` (R30). -/
  stepBudget : Count
  /-- The dispatch strategy sampled at `start` (R31). -/
  dispatchStrategy : Strategy
  /-- Whether a `start` has been given since power-on (R39, R164; log 7). -/
  started : Bool
  /-- The `Print` values of this run, oldest first (R37, R62; log 11). -/
  out : List Word
  /-- The `rand_data` port: the values the next `Rand` steps take, first first (R39, R41; log 9). -/
  randData : List Word
  /-- The model's own: how many free values steps have taken (logs 9 and 10). -/
  draws : Nat
  /-- The model's own: which power-on's unloaded cells and unspecified entries these are (log 4). -/
  powerOn : Nat
  deriving DecidableEq, Repr

/-- Why the model stops. Every error of the hardware is a next state in `Break` (R140), so these are raised
only in states that no run reaches (log 12). -/
inductive Fault where
  /-- Raised by `stackRead` and `stackWrite` for an index outside 0 .. STACK_CAPACITY - 1, an entry the spec
  does not give the machine (R26). Safe: such an access has no behaviour to claim anything of. -/
  | stackIndexAbsent
  /-- Raised by `progRead` for an index at or above PROGRAM_SIZE, a cell the spec does not give the machine
  (R46, R47). Safe: as above, and `FetchDecode` never makes such a read. -/
  | programIndexAbsent
  deriving DecidableEq, Repr

/-- Why the model refuses an instruction. -/
inductive Refusal where
  /-- Raised by an arm of `exec` whose instruction has no meaning yet; no arm does. Safe. -/
  | notModelled (mnemonic : String)
  deriving DecidableEq, Repr

/-- An outcome that carries a value of type `α`. -/
abbrev Result (α : Type) := Host.Outcome α Fault Refusal

/-- The run-start state of R160, with no program loaded. The spec gives pc, sp, state, steps and cause; the
parameters, the run inputs and the model's own fields are the model's choice (logs 1, 2, 6, 7, 9, 11). -/
def State.reset : State where
  cfg := { programSize := 2 ^ 31 - 1, stackCapacity := 2 ^ 31 - 1, opcodeMap := defaultOpcodeMap }
  prog := []
  pc := 0
  sp := -1
  stack := []
  runState := .running
  steps := 0
  cause := .noCause
  stepBudget := -1
  dispatchStrategy := .centralLoop
  started := true
  out := []
  randData := []
  draws := 0
  powerOn := 0

end Sys2Proof.Machine
end

