-- ==== Sys2Proof/Machine/Ops.lean ====
section
/-!
DEFINITION. The named operations every meaning is written with: sequencing, `raise Break`, the reads of the
program store, the stack primitives of 40_sequencer.md R87-R92, the two devices, and the uniform end of step.
-/

namespace Sys2Proof.Machine

/-- Go on with the value of `r`, or stop as it stopped. -/
def andThen {α β : Type} (r : Result α) (f : α → Result β) : Result β :=
  match r with
  | .next a => f a
  | .fault e => .fault e
  | .refused e => .refused e

/-- `raise Break(c)`: the spec's one error mechanism, for every error (R10, R140). Nothing else is saved and
control goes nowhere; the only way back to `Running` is a new `start` (R154). -/
def raiseBreak (c : BreakCause) (s : State) : State :=
  { s with runState := .brk, cause := c }

/-- The value of program-store cell `a`: what the host loaded, or the cell's draw (R49). -/
def progCell (s : State) (a : Nat) : Word :=
  (memRead s.prog a).getD (Config.unloadedCell s.powerOn a)

/-- `ProgRead(a)` (R47). -/
def progRead (s : State) (a : Nat) : Result Word :=
  if a < s.cfg.programSize then .next (progCell s a) else .fault .programIndexAbsent

/-- The value of stack entry `i`: what this run wrote, or an unspecified value (R27). -/
def stackEntry (s : State) (i : Nat) : Word :=
  (memRead s.stack i).getD (Config.unspecifiedEntry s.powerOn i)

/-- Whether the array has an entry of index `i` (R26). -/
abbrev stackIndexOk (s : State) (i : Int) : Prop := 0 ≤ i ∧ i < s.cfg.stackCapacity

/-- `stack[i]`. -/
def stackRead (s : State) (i : Int) : Result Word :=
  if stackIndexOk s i then .next (stackEntry s i.toNat) else .fault .stackIndexAbsent

/-- `stack[i] <- v`. -/
def stackWrite (s : State) (i : Int) (v : Word) : Result State :=
  if stackIndexOk s i then .next { s with stack := memWrite s.stack i.toNat v }
  else .fault .stackIndexAbsent

/-- `Push(v)` (R87). -/
def push (v : Word) (s : State) : Result State :=
  if (s.cfg.stackCapacity : Int) - 1 ≤ s32 s.sp + 1 then .next (raiseBreak .stackOverflow s)
  else stackWrite { s with sp := s.sp + 1 } (s32 s.sp + 1) v

/-- `Pop()` (R88). -/
def pop (s : State) : Result (Word × State) :=
  if s32 s.sp < 0 then .next (0, raiseBreak .stackUnderflow s)
  else andThen (stackRead s (s32 s.sp)) fun v => .next (v, { s with sp := s.sp - 1 })

/-- `PickAt(n)`, n read as unsigned (R89). -/
def pickAt (n : Word) (s : State) : Result (Word × State) :=
  if s32 s.sp - n.toNat < 0 then .next (0, raiseBreak .invalidPickDepth s)
  else andThen (stackRead s (s32 s.sp - n.toNat)) fun v => .next (v, s)

/-- `if state != Running then abandon`: go on with `k` only while the state is `Running` (R11, R91). -/
def unlessAbandoned (s : State) (k : State → Result State) : Result State :=
  if s.runState = .running then k s else .next s

/-- `x <- Pop(); if state != Running then abandon`. -/
def popThen (s : State) (k : Word → State → Result State) : Result State :=
  andThen (pop s) fun r => unlessAbandoned r.2 (k r.1)

/-- `Push(v); if state != Running then abandon`. -/
def pushThen (v : Word) (s : State) (k : State → Result State) : Result State :=
  andThen (push v s) fun t => unlessAbandoned t k

/-- `x <- PickAt(n); if state != Running then abandon`. -/
def pickThen (n : Word) (s : State) (k : Word → State → Result State) : Result State :=
  andThen (pickAt n s) fun r => unlessAbandoned r.2 (k r.1)

/-- `Emit(v)`: one event to the print sink, after the earlier ones (R135, R62). -/
def emit (v : Word) (s : State) : State := { s with out := s.out ++ [v] }

/-- `DrawRand()`: the value on the `rand_data` port, or, where the state lists none, a fresh free value
(R136, R41; log 9). -/
def drawRand (s : State) : Word × State :=
  match s.randData with
  | r :: rest => (r, { s with randData := rest })
  | [] => (Config.randDraw s.draws, { s with draws := s.draws + 1 })

/-- The draw SHIFT_LARGE: a fresh free value (R6, R130, R131; log 10). -/
def drawShift (s : State) : Word × State :=
  (Config.shiftLarge s.draws, { s with draws := s.draws + 1 })

/-- The addition of a taken jump, while pc is still the jump's own index (R24, R94). -/
def jumpBy (imm : Int) (s : State) : State := { s with pc := s.pc + u32 imm }

/-- The uniform end of step: pc advances by the decoded length and the step counts (R24, R93). -/
def endStep (len : Nat) (s : State) : State :=
  { s with pc := s.pc + BitVec.ofNat 32 len, steps := s.steps + 1 }

/-- A handler's result followed by the uniform end of step, whatever the handler did (R93). -/
def finish (len : Nat) (r : Result State) : Result State :=
  andThen r fun s => .next (endStep len s)

/-- Whether a step may begin: a run is started, `state = Running` and `steps < step_budget` (R95). It is also
whether a run is active (R39, R98). -/
def stepAllowed (s : State) : Bool :=
  s.started && decide (s.runState = .running) && decide (s.steps < s.stepBudget)

/-- The live entries, bottom to top: `stack[0] .. stack[sp]` (R25, R37). -/
def liveStack (s : State) : List Word :=
  (List.range (s32 s.sp + 1).toNat).map (stackEntry s)

end Sys2Proof.Machine
end

