-- ==== Sys2Proof/Machine/HostPort.lean ====
section
/-!
DEFINITION. The block's interface (10_state.md R37-R44) and the host's moves between runs
(70_reset_and_hazards.md R160-R167): functions of the state, no part of a step.
-/

namespace Sys2Proof.Machine

/-- `prog_we`, `prog_waddr`, `prog_wdata`: a write is honoured only while no run is active, and only below
PROGRAM_SIZE (R39, R42, R166). -/
def hostLoad (addr : Word) (v : Word) (s : State) : State :=
  if stepAllowed s then s
  else if addr.toNat < s.cfg.programSize then { s with prog := memWrite s.prog addr.toNat v }
  else s

/-- Load a program's cells from index `index` on, one write each (R165). -/
def hostLoadFrom (index : Nat) (cells : List Word) (s : State) : State :=
  match cells with
  | [] => s
  | c :: rest => hostLoadFrom (index + 1) rest (hostLoad (BitVec.ofNat 32 index) c s)

/-- The run-start state of R160 over the loaded program: stack entries become unspecified (log 5), the record
of print events is a new run's (log 11), the store and the random source are not touched. -/
def runStart (budget : Count) (strategy : Strategy) (s : State) : State :=
  { s with
    pc := 0, sp := -1, stack := [], runState := .running, steps := 0, cause := .noCause,
    stepBudget := budget, dispatchStrategy := strategy, started := true, out := [] }

/-- `start`, with the budget and the strategy it samples (R160, R165, R167). While a run is active the host has
no such move: `none` (R166, log 14). -/
def hostStart (budget : Count) (strategy : Strategy) (s : State) : Option State :=
  if stepAllowed s then none else some (runStart budget strategy s)

/-- The host supplies the value of a coming `Rand` step on `rand_data`, after those already supplied (R166). -/
def hostSupplyRand (v : Word) (s : State) : State := { s with randData := s.randData ++ [v] }

/-- The host's boot of R165: load a program from index 0, then start. -/
def hostBoot (cells : List Word) (budget : Count) (strategy : Strategy) (s : State) : Option State :=
  hostStart budget strategy (hostLoadFrom 0 cells s)

/-- `state_o`: the 2-bit code of R28. -/
def stateCode : RunState → BitVec 2
  | .running => 0
  | .halted => 1
  | .brk => 2

/-- `cause_o`: the 4-bit code of R141. -/
def causeCode : BreakCause → BitVec 4
  | .noCause => 0
  | .pcOutOfRange => 1
  | .truncatedInstruction => 2
  | .stackOverflow => 3
  | .stackUnderflow => 4
  | .invalidPickDepth => 5
  | .divisionByZero => 6
  | .unrecognizedOpcode => 7
  | .explicitBreak => 8

/-- The 1-bit code of `dispatch_strategy` (R31). -/
def strategyCode : Strategy → BitVec 1
  | .centralLoop => 0
  | .handlerChained => 1

/-- `done`: 1 from the end of run until the next `start` (R39, R98). -/
def doneOut (s : State) : Bool := s.started && !stepAllowed s

/-- `status_o`, valid with `done`: success for `Halted`, and for `Running` with the budget used up; failure
for `Break` (R99). -/
def statusOut (s : State) : Option Bool :=
  if doneOut s then
    match s.runState with
    | .halted => some true
    | .running => some (decide (s.steps = s.stepBudget))
    | .brk => some false
  else none

/-- `stk_rdata` for `stk_raddr`: unspecified above sp (R39). -/
def stackOut (raddr : Word) (s : State) : Word :=
  if (raddr.toNat : Int) ≤ s32 s.sp then stackEntry s raddr.toNat
  else Config.unspecifiedEntry s.powerOn raddr.toNat

/-- The print port over one step, from the states around it: the value of `print_data` when the step raised
`print_valid` (R39, R40). -/
def printEvent (before after : State) : Option Word := (after.out.drop before.out.length).head?

/-- FinalState (R37). -/
structure FinalState where
  state : RunState
  pc : Word
  sp : Word
  steps : Count
  stack : List Word
  deriving DecidableEq, Repr

/-- What the block hands out at the end of a run (R37). -/
def finalState (s : State) : FinalState where
  state := s.runState
  pc := s.pc
  sp := s.sp
  steps := s.steps
  stack := liveStack s

end Sys2Proof.Machine
end

