-- ==== Sys2Proof/Machine/Alu.lean ====
section
/-!
DEFINITION. The arithmetic and bitwise results of 43_arithmetic.md and 44_bitwise.md on unsigned 32-bit words.
`a` is the first word popped, `b` the second.
-/

namespace Sys2Proof.Machine

/-- `u32(a + 1)` (R120). -/
def aluInc (a : Word) : Word := a + 1

/-- `u32(a - 1)` (R121). -/
def aluDec (a : Word) : Word := a - 1

/-- `u32(a + b)` (R122). -/
def aluAdd (a b : Word) : Word := a + b

/-- `u32(a - b)`: the top minus the entry below it (R123). -/
def aluSub (a b : Word) : Word := a - b

/-- `u32(a * b)` (R124). -/
def aluMul (a b : Word) : Word := a * b

/-- `a mod b`, unsigned, for b other than 0 (R125). -/
def aluMod (a b : Word) : Word := a.umod b

/-- `a & b` (R127). -/
def aluAnd (a b : Word) : Word := a &&& b

/-- `a | b` (R128). -/
def aluOr (a b : Word) : Word := a ||| b

/-- `a ^ b` (R129). -/
def aluXor (a b : Word) : Word := a ^^^ b

/-- `a` shifted left by `b`, for b below 32; zeros enter at bit 0 (R130). -/
def aluShl (a b : Word) : Word := a <<< b.toNat

/-- `a` shifted right logically by `b`, for b below 32; zeros enter at bit 31 (R131). -/
def aluShr (a b : Word) : Word := a >>> b.toNat

/-- The root of `a` found so far is `r`; settle the bits below bit `n` of it, high to low. -/
def rootBits (a : Nat) (n r : Nat) : Nat :=
  match n with
  | 0 => r
  | k + 1 =>
    if (r + 2 ^ k) * (r + 2 ^ k) ≤ a then rootBits a k (r + 2 ^ k) else rootBits a k r

/-- `floor_sqrt(a)` (R8, R126): the root of a 32-bit word has at most 16 bits. -/
def aluSqrt (a : Word) : Word := BitVec.ofNat 32 (rootBits a.toNat 16 0)

end Sys2Proof.Machine
end

