-- ==== Sys2Proof/Machine/Operands.lean ====
section
/-!
DEFINITION. The operand forms: the immediate (30_encoding.md R67, R68), one popped operand, and two popped
operands in the source's order, first popped OP second popped (00_scope.md R12, 43_arithmetic.md).
-/

namespace Sys2Proof.Machine

/-- The word an immediate is pushed as, `u32(imm)` (R68). -/
def immWord (imm : Int) : Word := u32 imm

/-- `a <- Pop(); Push(f a)`. -/
def unary (f : Word → Word) (s : State) : Result State :=
  popThen s fun a s1 => push (f a) s1

/-- `a <- Pop(); b <- Pop()`, then go on: a is the old top, b the entry below it (R12). -/
def popTwo (s : State) (k : Word → Word → State → Result State) : Result State :=
  popThen s fun a s1 => popThen s1 fun b s2 => k a b s2

/-- `a <- Pop(); b <- Pop(); Push(f a b)`. -/
def binary (f : Word → Word → Word) (s : State) : Result State :=
  popTwo s fun a b s2 => push (f a b) s2

end Sys2Proof.Machine
end

