-- ==== Sys2Proof/Machine/Arithmetic.lean ====
section
/-!
DEFINITION. Inc, Dec, Add, Sub, Mul, Mod and SQRT (43_arithmetic.md).
-/

namespace Sys2Proof.Machine

/-- `Inc` (R120). -/
def execInc (s : State) : Result State := finish 1 (unary aluInc s)

/-- `Dec` (R121). -/
def execDec (s : State) : Result State := finish 1 (unary aluDec s)

/-- `Add` (R122). -/
def execAdd (s : State) : Result State := finish 1 (binary aluAdd s)

/-- `Sub`: the top minus the entry below it (R123, C1). -/
def execSub (s : State) : Result State := finish 1 (binary aluSub s)

/-- `Mul` (R124). -/
def execMul (s : State) : Result State := finish 1 (binary aluMul s)

/-- `Mod`: the top modulo the entry below it; a zero divisor breaks after both pops (R125, R147). -/
def execMod (s : State) : Result State :=
  finish 1 (popTwo s fun a b s2 =>
    if b = 0 then .next (raiseBreak .divisionByZero s2) else push (aluMod a b) s2)

/-- `SQRT` (R126). -/
def execSqrt (s : State) : Result State := finish 1 (unary aluSqrt s)

end Sys2Proof.Machine
end

