-- ==== Sys2Proof/Machine/Bitwise.lean ====
section
/-!
DEFINITION. And, Or, Xor, SHL and SHR (44_bitwise.md).
-/

namespace Sys2Proof.Machine

/-- `And` (R127). -/
def execAnd (s : State) : Result State := finish 1 (binary aluAnd s)

/-- `Or` (R128). -/
def execOr (s : State) : Result State := finish 1 (binary aluOr s)

/-- `Xor` (R129). -/
def execXor (s : State) : Result State := finish 1 (binary aluXor s)

/-- A shift: the top is shifted by the whole word below it; an amount of 32 or more gives the draw
SHIFT_LARGE and is no error (R130, R131). -/
def shift (f : Word → Word → Word) (s : State) : Result State :=
  popTwo s fun a b s2 =>
    if b.toNat < 32 then push (f a b) s2 else push (drawShift s2).1 (drawShift s2).2

/-- `SHL` (R130). -/
def execShl (s : State) : Result State := finish 1 (shift aluShl s)

/-- `SHR` (R131). -/
def execShr (s : State) : Result State := finish 1 (shift aluShr s)

end Sys2Proof.Machine
end

