-- ==== Sys2Proof/Machine/Flags.lean ====
section
/-!
DEFINITION. The block has no flags, condition codes or predicate registers (10_state.md R33); the conditional
jumps test the word they pop. Those two tests stand here.
-/

namespace Sys2Proof.Machine

/-- The test of `JE` on the popped word (R132). -/
def condJE (a : Word) : Bool := decide (a = 0)

/-- The test of `JNE` on the popped word (R133). -/
def condJNE (a : Word) : Bool := decide (a ≠ 0)

end Sys2Proof.Machine
end

