-- ==== Sys2Proof/Machine/Branch.lean ====
section
/-!
DEFINITION. JE, JNE and Jump (45_branch.md). The jump's addition happens before the end of step adds 2.
-/

namespace Sys2Proof.Machine

/-- `JE imm` (R132). -/
def execJe (imm : Int) (s : State) : Result State :=
  finish 2 (popThen s fun a s1 => .next (if condJE a then jumpBy imm s1 else s1))

/-- `JNE imm` (R133). -/
def execJne (imm : Int) (s : State) : Result State :=
  finish 2 (popThen s fun a s1 => .next (if condJNE a then jumpBy imm s1 else s1))

/-- `Jump imm` (R134). -/
def execJump (imm : Int) (s : State) : Result State := finish 2 (.next (jumpBy imm s))

end Sys2Proof.Machine
end

