-- ==== Sys2Proof/Machine/Control.lean ====
section
/-!
DEFINITION. Nop, Halt, Break and the fallback row (41_control.md).
-/

namespace Sys2Proof.Machine

/-- `Nop` (R110). -/
def execNop (s : State) : Result State := finish 1 (.next s)

/-- `Halt` (R111). -/
def execHalt (s : State) : Result State := finish 1 (.next { s with runState := .halted })

/-- The one handler of every `Break` decoding, with the decode cause (R112), and its end of step. -/
def runBreak (c : BreakCause) (s : State) : Result State :=
  finish 1 (.next (if s.runState = .running then raiseBreak c s else s))

/-- The `Break` opcode (R112, R149). -/
def execBreak (s : State) : Result State := runBreak .explicitBreak s

/-- A cell outside the closed set: the `Break` handler, length 1 (R71, R148). -/
def execUnrecognized (s : State) : Result State := runBreak .unrecognizedOpcode s

end Sys2Proof.Machine
end

