-- ==== Sys2Proof/Machine/Io.lean ====
section
/-!
DEFINITION. Print and Rand (46_io.md).
-/

namespace Sys2Proof.Machine

/-- `Print` (R135). -/
def execPrint (s : State) : Result State :=
  finish 1 (popThen s fun a s1 => .next (emit a s1))

/-- `Rand`: the draw is taken even when the push then fails (R136). -/
def execRand (s : State) : Result State :=
  finish 1 (push (drawRand s).1 (drawRand s).2)

end Sys2Proof.Machine
end

