-- ==== Sys2Proof/Machine/Stack.lean ====
section
/-!
DEFINITION. Push, Drop, Dup, Swap, Over, Rot and Pick (42_stack.md).
-/

namespace Sys2Proof.Machine

/-- `Push v` (R113). -/
def execPush (imm : Int) (s : State) : Result State := finish 2 (push (immWord imm) s)

/-- `Drop` (R114). -/
def execDrop (s : State) : Result State := finish 1 (popThen s fun _ s1 => .next s1)

/-- `Dup`: pop a, push a, a (R115). -/
def execDup (s : State) : Result State :=
  finish 1 (popThen s fun a s1 => pushThen a s1 fun s2 => push a s2)

/-- `Swap`: pop a, b, push a, b (R116). -/
def execSwap (s : State) : Result State :=
  finish 1 (popTwo s fun a b s2 => pushThen a s2 fun s3 => push b s3)

/-- `Over`: pop a, b, push b, a, b (R117). -/
def execOver (s : State) : Result State :=
  finish 1 (popTwo s fun a b s2 =>
    pushThen b s2 fun s3 => pushThen a s3 fun s4 => push b s4)

/-- `Rot`: pop a, b, c, push a, c, b (R118). -/
def execRot (s : State) : Result State :=
  finish 1 (popTwo s fun a b s2 => popThen s2 fun c s3 =>
    pushThen a s3 fun s4 => pushThen c s4 fun s5 => push b s5)

/-- `Pick`: pop n, push the entry n below the new top (R119). -/
def execPick (s : State) : Result State :=
  finish 1 (popThen s fun n s1 => pickThen n s1 fun v s2 => push v s2)

end Sys2Proof.Machine
end

