-- ==== Sys2Proof/Machine/Dispatch.lean ====
section
/-!
DEFINITION. One arm per instruction (40_sequencer.md R104): the handler of the instruction and its end of step.
-/

namespace Sys2Proof.Machine

def exec (i : Instr) (s : State) : Host.Outcome State Fault Refusal :=
  match i with
  | .nop => Sys2Proof.Machine.execNop s
  | .halt => Sys2Proof.Machine.execHalt s
  | .push imm => Sys2Proof.Machine.execPush imm s
  | .print => Sys2Proof.Machine.execPrint s
  | .swap => Sys2Proof.Machine.execSwap s
  | .dup => Sys2Proof.Machine.execDup s
  | .ovr => Sys2Proof.Machine.execOver s
  | .inc => Sys2Proof.Machine.execInc s
  | .add => Sys2Proof.Machine.execAdd s
  | .sub => Sys2Proof.Machine.execSub s
  | .mod => Sys2Proof.Machine.execMod s
  | .mul => Sys2Proof.Machine.execMul s
  | .rand => Sys2Proof.Machine.execRand s
  | .dec => Sys2Proof.Machine.execDec s
  | .drop => Sys2Proof.Machine.execDrop s
  | .je imm => Sys2Proof.Machine.execJe imm s
  | .jne imm => Sys2Proof.Machine.execJne imm s
  | .jump imm => Sys2Proof.Machine.execJump imm s
  | .and => Sys2Proof.Machine.execAnd s
  | .or => Sys2Proof.Machine.execOr s
  | .xor => Sys2Proof.Machine.execXor s
  | .shl => Sys2Proof.Machine.execShl s
  | .shr => Sys2Proof.Machine.execShr s
  | .rot => Sys2Proof.Machine.execRot s
  | .sqrt => Sys2Proof.Machine.execSqrt s
  | .pick => Sys2Proof.Machine.execPick s
  | .brk => Sys2Proof.Machine.execBreak s
  | .unrecognized _ => Sys2Proof.Machine.execUnrecognized s

end Sys2Proof.Machine
end

