-- ==== Sys2Proof/Machine/Fetch.lean ====
section
/-!
DEFINITION. The fetch/decode unit (40_sequencer.md R80-R86).
-/

namespace Sys2Proof.Machine

/-- The cells `FetchDecode` reads at pc, in its order of checks: none when pc is out of range (R81), the opcode
cell, and the second cell only for a two-cell opcode that has one inside the store (R83, R84). -/
def fetchCells (s : State) : Result (List Word) :=
  if s.cfg.programSize ≤ s.pc.toNat then .next []
  else andThen (progRead s s.pc.toNat) fun w =>
    if needsImmediate s.cfg.opcodeMap w ∧ s.pc.toNat + 1 < s.cfg.programSize then
      andThen (progRead s (s.pc.toNat + 1)) fun v => .next [w, v]
    else .next [w]

/-- The state after decode: only the out-of-range decoding changes it (R81, R85). -/
def afterDecode (d : Decoded) (s : State) : State :=
  match d with
  | .pcOutOfRange => raiseBreak .pcOutOfRange s
  | .truncated => s
  | .instr _ => s

/-- `FetchDecode()` (R80): the decoded instruction and the state it leaves. -/
def fetchDecode (s : State) : Result (Decoded × State) :=
  andThen (fetchCells s) fun cells =>
    .next (decode s.cfg.opcodeMap cells, afterDecode (decode s.cfg.opcodeMap cells) s)

/-- `d.op` of R80: the tag dispatch selects the handler by (R104). -/
def decodedTag : Decoded → Mnemonic
  | .instr i => instrTag i
  | .pcOutOfRange => .brk
  | .truncated => .brk

/-- `d.len` of R80. -/
def decodedLen : Decoded → Nat
  | .instr i => instrLen i
  | .pcOutOfRange => 1
  | .truncated => 1

/-- `d.imm` of R80. -/
def decodedImm : Decoded → Option Int
  | .instr i => instrImm i
  | .pcOutOfRange => none
  | .truncated => none

/-- The decode cause an instruction carries: only the `Break` opcode and an unrecognized cell have one
(R112). -/
def instrCause : Instr → Option BreakCause
  | .nop => none
  | .halt => none
  | .push _ => none
  | .print => none
  | .swap => none
  | .dup => none
  | .ovr => none
  | .inc => none
  | .add => none
  | .sub => none
  | .mod => none
  | .mul => none
  | .rand => none
  | .dec => none
  | .drop => none
  | .je _ => none
  | .jne _ => none
  | .jump _ => none
  | .and => none
  | .or => none
  | .xor => none
  | .shl => none
  | .shr => none
  | .rot => none
  | .sqrt => none
  | .pick => none
  | .brk => some .explicitBreak
  | .unrecognized _ => some .unrecognizedOpcode

/-- `d.dcause` of R80: the decode cause of a `Break` decoding, or none. -/
def decodedCause : Decoded → Option BreakCause
  | .instr i => instrCause i
  | .pcOutOfRange => some .pcOutOfRange
  | .truncated => some .truncatedInstruction

end Sys2Proof.Machine
end

