-- ==== Sys2Proof/Machine/Sequencer.lean ====
section
/-!
DEFINITION. The step cycle and the two dispatch strategies (40_sequencer.md R93-R103).
-/

namespace Sys2Proof.Machine

/-- The handler of a decoded instruction and its end of step: the two decodings that stand for no instruction
run the `Break` handler with length 1 (R81, R83, R112). -/
def execDecoded (d : Decoded) (s : State) : Result State :=
  match d with
  | .instr i => exec i s
  | .pcOutOfRange => runBreak .pcOutOfRange s
  | .truncated => runBreak .truncatedInstruction s

/-- `Step()` (R93). -/
def oneStep (s : State) : Result State :=
  andThen (fetchDecode s) fun r => execDecoded r.1 r.2

/-- `Step()` where a step may begin; elsewhere nothing happens and every register keeps its value
(R44, R95, R108, R159; log 8). -/
def stepOrIdle (s : State) : Result State :=
  if stepAllowed s then oneStep s else .next s

/-- Strategy A, the central loop of `Run` (R96, R100), for at most `fuel` steps: `none` when the run has not
ended by then. -/
def runLoop (fuel : Nat) (s : State) : Option (Result State) :=
  match fuel with
  | 0 => if stepAllowed s then none else some (.next s)
  | k + 1 =>
    if stepAllowed s then
      match oneStep s with
      | .next t => runLoop k t
      | .fault e => some (.fault e)
      | .refused e => some (.refused e)
    else some (.next s)

/-- Strategy B's chain (R101): the handler of the held decoding `d` runs; then either the run has ended or the
next instruction is decoded and control passes to its handler. The held decoding is the chain's whole control
state (R34, R35, R103). -/
def runChain (fuel : Nat) (d : Decoded) (s : State) : Option (Result State) :=
  match fuel with
  | 0 => none
  | k + 1 =>
    match execDecoded d s with
    | .next t =>
      if stepAllowed t then
        match fetchDecode t with
        | .next (d', t') => runChain k d' t'
        | .fault e => some (.fault e)
        | .refused e => some (.refused e)
      else some (.next t)
    | .fault e => some (.fault e)
    | .refused e => some (.refused e)

/-- Strategy B, `RunB` (R101): the budget is checked before the first fetch (C4). -/
def runHandlers (fuel : Nat) (s : State) : Option (Result State) :=
  if stepAllowed s then
    match fetchDecode s with
    | .next (d, t) => runChain fuel d t
    | .fault e => some (.fault e)
    | .refused e => some (.refused e)
  else some (.next s)

/-- A run under the strategy the host chose (R31, R43). -/
def run (fuel : Nat) (s : State) : Option (Result State) :=
  match s.dispatchStrategy with
  | .centralLoop => runLoop fuel s
  | .handlerChained => runHandlers fuel s

end Sys2Proof.Machine
end

