-- ==== Sys2Proof/Machine/Step.lean ====
section
/-!
DEFINITION. The machine's step, and where its next instruction is fetched.
-/

namespace Sys2Proof.Machine

/-- One step of the machine (40_sequencer.md R93, R95). -/
def step (s : State) : Host.Outcome State Fault Refusal := stepOrIdle s

/-- `s` with the two cells of an opcode-table word at pc and pc + 1, those of them that the store has; it stands
for the host's load of them before the run (log 7). -/
def State.withFetchWord (s : State) (nbits w : Nat) : State :=
  { s with prog := placeCells s.cfg.programSize s.pc.toNat (tableCells nbits w) s.prog }

end Sys2Proof.Machine
end

