-- ==== Sys2Proof/WellFormed.lean ====
section
/-!
DEFINITION. When parameters and an instruction are ones the spec admits.
-/

namespace Sys2Proof

/-- No two mnemonics share an opcode value (R6, R70). -/
abbrev OpcodeMap.Injective (map : OpcodeMap) : Prop :=
  (allMnemonics.map (opcodeOf map)).Nodup

/-- The bounds of R6 on the OPEN parameters. -/
abbrev Config.WellFormed (cfg : Config) : Prop :=
  1 ≤ cfg.programSize ∧ cfg.programSize ≤ 2 ^ 31 - 1 ∧
  1 ≤ cfg.stackCapacity ∧ cfg.stackCapacity ≤ 2 ^ 31 - 1 ∧
  cfg.opcodeMap.Injective

/-- The immediate is an s32 (R8, R67). -/
abbrev immInRange (imm : Int) : Prop := -2 ^ 31 ≤ imm ∧ imm < 2 ^ 31

/-- An instruction the decoder can produce: an immediate is an s32, and an unrecognized cell is the opcode
of no mnemonic (R71). -/
def Instr.wellFormed (map : OpcodeMap) : Instr → Bool
  | .nop => true
  | .halt => true
  | .push imm => decide (immInRange imm)
  | .print => true
  | .swap => true
  | .dup => true
  | .ovr => true
  | .inc => true
  | .add => true
  | .sub => true
  | .mod => true
  | .mul => true
  | .rand => true
  | .dec => true
  | .drop => true
  | .je imm => decide (immInRange imm)
  | .jne imm => decide (immInRange imm)
  | .jump imm => decide (immInRange imm)
  | .and => true
  | .or => true
  | .xor => true
  | .shl => true
  | .shr => true
  | .rot => true
  | .sqrt => true
  | .pick => true
  | .brk => true
  | .unrecognized w => (lookupOpcode map w).isNone

end Sys2Proof
end

