-- ==== Sys2Proof/Safety.lean ====
section
/-!
DEFINITION. What claims are stated with: the invariant of every run, what counts as a safe step, and what an
instruction leaves behind.
-/

namespace Sys2Proof.Machine

/-- sp stays in the tight range of R25, and a 32-bit sp can hold it (R6). -/
abbrev SpInRange (s : State) : Prop :=
  -1 ≤ s32 s.sp ∧ s32 s.sp ≤ (s.cfg.stackCapacity : Int) - 2 ∧ s.cfg.stackCapacity ≤ 2 ^ 31 - 1

/-- Every live entry was written in this run (R27). -/
abbrev LiveWritten (s : State) : Prop :=
  ∀ i < (s32 s.sp + 1).toNat, (memRead s.stack i).isSome

/-- What holds of every state of a run: the parameters are ones the spec admits (R6), sp is in range (R25), both
spaces are in canonical form, only existing cells are loaded (R39) and entry STACK_CAPACITY - 1 and beyond were
never written (R26), live entries were written in this run (R27), the budget is not exceeded (R29, R97), and there
is a cause exactly in `Break` (R32). -/
abbrev State.Inv (s : State) : Prop :=
  s.cfg.WellFormed ∧ SpInRange s ∧ Memory.wf s.prog ∧ Memory.wf s.stack ∧
  (∀ e ∈ s.prog, e.1 < s.cfg.programSize) ∧ (∀ e ∈ s.stack, e.1 + 1 < s.cfg.stackCapacity) ∧
  LiveWritten s ∧ s.steps ≤ s.stepBudget ∧ (s.cause = .noCause ↔ s.runState ≠ .brk)

/-- Where a handler may run: the state is `Running` and sp is in range. -/
abbrev Ready (s : State) : Prop := s.runState = .running ∧ SpInRange s

/-- A step that stops with neither a fault nor a refusal. -/
def SafeStep (s : State) : Prop := ∃ t, step s = .next t

/-- The run inputs and parameters, which no step writes (R20). -/
abbrev SameInputs (s t : State) : Prop :=
  t.cfg = s.cfg ∧ t.prog = s.prog ∧ t.stepBudget = s.stepBudget ∧
  t.dispatchStrategy = s.dispatchStrategy ∧ t.started = s.started ∧ t.powerOn = s.powerOn

/-- What the two devices and the free values see: nothing happened. -/
abbrev SameDevices (s t : State) : Prop :=
  t.out = s.out ∧ t.randData = s.randData ∧ t.draws = s.draws

/-- The whole of a record of R20 after a step that began in `s`: pc, the live stack, state and cause as given, one
more step counted, the inputs as they were. -/
abbrev Leaves (s t : State) (pc : Word) (live : List Word) (st : RunState) (c : BreakCause) : Prop :=
  t.pc = pc ∧ liveStack t = live ∧ t.runState = st ∧ t.cause = c ∧ t.steps = s.steps + 1 ∧ SameInputs s t

/-- `i` executes normally in `s`, without touching a device: a next state with this pc and this live stack, still
`Running`. -/
def Completes (i : Instr) (s : State) (pc : Word) (live : List Word) : Prop :=
  ∃ t, exec i s = .next t ∧ Leaves s t pc live .running s.cause ∧ SameDevices s t

/-- `i` ends the step in `Break` with cause `c`, this pc and this live stack (R140, R150), without touching a
device. -/
def Breaks (i : Instr) (s : State) (c : BreakCause) (pc : Word) (live : List Word) : Prop :=
  ∃ t, exec i s = .next t ∧ Leaves s t pc live .brk c ∧ SameDevices s t

/-- `i` is a one-cell instruction whose opcode is its tag's, `n` in the default map (R64, R70, R78). -/
abbrev EncodesOneCell (i : Instr) (n : Word) : Prop :=
  (∀ map, encode map i = [opcodeOf map (instrTag i)]) ∧ encode defaultOpcodeMap i = [n] ∧ instrLen i = 1

/-- `i` is a two-cell instruction with immediate `imm`, its opcode `n` in the default map (R64, R70, R78). -/
abbrev EncodesTwoCells (i : Instr) (n : Word) (imm : Int) : Prop :=
  (∀ map, encode map i = [opcodeOf map (instrTag i), u32 imm]) ∧
  encode defaultOpcodeMap i = [n, u32 imm] ∧ instrLen i = 2 ∧ instrImm i = some imm

/-- The cells of `i` stand in the program store at index `a`, all of them below PROGRAM_SIZE. -/
abbrev Holds (s : State) (a : Nat) (i : Instr) : Prop :=
  a + (encode s.cfg.opcodeMap i).length ≤ s.cfg.programSize ∧
  ∀ k v, (encode s.cfg.opcodeMap i)[k]? = some v → progCell s (a + k) = v

/-- How many entries an instruction pops, by its stack picture (R110-R136). `Pick` also reads one entry it does
not pop. -/
def popCount : Instr → Nat
  | .nop => 0
  | .halt => 0
  | .push _ => 0
  | .print => 1
  | .swap => 2
  | .dup => 1
  | .ovr => 2
  | .inc => 1
  | .add => 2
  | .sub => 2
  | .mod => 2
  | .mul => 2
  | .rand => 0
  | .dec => 1
  | .drop => 1
  | .je _ => 1
  | .jne _ => 1
  | .jump _ => 0
  | .and => 2
  | .or => 2
  | .xor => 2
  | .shl => 2
  | .shr => 2
  | .rot => 3
  | .sqrt => 1
  | .pick => 1
  | .brk => 0
  | .unrecognized _ => 0

/-- How many entries an instruction pushes, by its stack picture (R110-R136). -/
def pushCount : Instr → Nat
  | .nop => 0
  | .halt => 0
  | .push _ => 1
  | .print => 0
  | .swap => 2
  | .dup => 2
  | .ovr => 3
  | .inc => 1
  | .add => 1
  | .sub => 1
  | .mod => 1
  | .mul => 1
  | .rand => 1
  | .dec => 1
  | .drop => 0
  | .je _ => 0
  | .jne _ => 0
  | .jump _ => 0
  | .and => 1
  | .or => 1
  | .xor => 1
  | .shl => 1
  | .shr => 1
  | .rot => 3
  | .sqrt => 1
  | .pick => 1
  | .brk => 0
  | .unrecognized _ => 0

end Sys2Proof.Machine
end

