-- ==== Sys2Proof/Certificates/Slice0/Obligations.lean ====
section
/-!
DEFINITION. The statements for the provers, from the numbered rules of spec/. Stacks are lists from bottom to top,
so `xs ++ [x, y]` has y on top. A hypothesis `Ready s` says that the state is `Running` and sp is in the range of
R25, which `StepKeepsTheInvariant` keeps.
-/

open Sys2Proof Sys2Proof.Machine

/-! ## Run start, the host's moves, the invariant -/

/-- R160: the values the spec gives for the run start. The parameters, budget and strategy of `State.reset` are the
model's choice (logs 1, 2, 6) and are not claimed here. -/
def Obligations.ResetIsTheRunStartState : Prop :=
  State.reset.pc = 0 ∧ s32 State.reset.sp = -1 ∧ liveStack State.reset = [] ∧
  State.reset.runState = .running ∧ State.reset.steps = 0 ∧ State.reset.cause = .noCause ∧
  State.reset.prog = [] ∧ State.reset.out = []

/-- R160, R161, R163, R167: `start`, given while no run is active, applies the run-start state, samples budget and
strategy, and leaves the program store and the random source; nothing else of an earlier run is carried over. That
there is no `start` during a run is D29, and that a start forgets the record of print events is log 11. -/
def Obligations.StartAppliesTheRunStartState : Prop :=
  (∀ s b d, stepAllowed s = false → ∃ t, hostStart b d s = some t ∧
    t.pc = 0 ∧ s32 t.sp = -1 ∧ liveStack t = [] ∧ t.runState = .running ∧ t.steps = 0 ∧
    t.cause = .noCause ∧ t.stepBudget = b ∧ t.dispatchStrategy = d ∧ t.started = true ∧ t.out = [] ∧
    t.cfg = s.cfg ∧ t.prog = s.prog ∧ t.randData = s.randData) ∧
  (∀ s s' b d, stepAllowed s = false → stepAllowed s' = false → s.cfg = s'.cfg → s.prog = s'.prog →
    s.randData = s'.randData → s.draws = s'.draws → s.powerOn = s'.powerOn →
    hostStart b d s = hostStart b d s') ∧
  (∀ s b d, stepAllowed s = true → hostStart b d s = none)

/-- R39, R42, R166: the load port writes one whole cell while no run is active and the index is below PROGRAM_SIZE;
otherwise it changes nothing. -/
def Obligations.LoadPortWritesOneCell : Prop :=
  ∀ s (a v : Word),
    (stepAllowed s = true → hostLoad a v s = s) ∧
    (s.cfg.programSize ≤ a.toNat → hostLoad a v s = s) ∧
    (stepAllowed s = false → a.toNat < s.cfg.programSize →
      progCell (hostLoad a v s) a.toNat = v ∧
      (∀ k, k ≠ a.toNat → progCell (hostLoad a v s) k = progCell s k) ∧
      hostLoad a v s = { s with prog := (hostLoad a v s).prog })

/-- The run-start state meets the invariant. -/
def Obligations.ResetMeetsTheInvariant : Prop := State.reset.Inv

/-- Every step keeps the invariant: sp stays in -1 .. STACK_CAPACITY - 2 (R25), entry STACK_CAPACITY - 1 is never
written (R26), every live entry was written in this run (R27), both spaces keep their canonical form, the budget is
never exceeded (R97), and there is a cause exactly in `Break` (R32, the spec's own register D9). -/
def Obligations.StepKeepsTheInvariant : Prop := ∀ s t, s.Inv → step s = .next t → t.Inv

/-- The host's moves keep the invariant too, so it holds across runs. -/
def Obligations.HostMovesKeepTheInvariant : Prop :=
  (∀ s a v, s.Inv → (hostLoad a v s).Inv) ∧ (∀ s v, s.Inv → (hostSupplyRand v s).Inv) ∧
  (∀ s b d t, s.Inv → hostStart b d s = some t → t.Inv)

/-- R145 (quoting the source's "never reads out-of-bounds memory"), R79, R140: from a state that meets the invariant
a step always answers a next state; no read or write outside the program store or the stack array is made. -/
def Obligations.StepNeverReachesOutsideTheArrays : Prop := ∀ s, s.Inv → SafeStep s

/-! ## Fetch and decode -/

/-- R79: in every state `FetchDecode` gives a decoded instruction, and it never reads a cell outside the store. -/
def Obligations.FetchDecodeIsTotal : Prop := ∀ s, ∃ d t, fetchDecode s = .next (d, t)

/-- R81: a pc at or above PROGRAM_SIZE sets `state = Break` and decodes as `Break` of length 1, without a read: the
store's contents play no part. The cause code is the spec's own (D9). -/
def Obligations.FetchBeyondTheStoreBreaks : Prop :=
  ∀ s, s.cfg.programSize ≤ s.pc.toNat →
    (∀ m, fetchCells { s with prog := m } = .next []) ∧
    fetchDecode s = .next (.pcOutOfRange, { s with runState := .brk, cause := .pcOutOfRange }) ∧
    decodedTag .pcOutOfRange = .brk ∧ decodedLen .pcOutOfRange = 1 ∧ decodedImm .pcOutOfRange = none

/-- R84: a cell that is no mnemonic's opcode decodes as `Break` of length 1, and the next cell is not read. -/
def Obligations.FetchOfAnUnknownOpcode : Prop :=
  ∀ s, s.pc.toNat < s.cfg.programSize →
    (∀ m, opcodeOf s.cfg.opcodeMap m ≠ progCell s s.pc.toNat) →
    fetchCells s = .next [progCell s s.pc.toNat] ∧
    fetchDecode s = .next (.instr (.unrecognized (progCell s s.pc.toNat)), s) ∧
    decodedTag (.instr (.unrecognized (progCell s s.pc.toNat))) = .brk ∧
    decodedLen (.instr (.unrecognized (progCell s s.pc.toNat))) = 1 ∧
    decodedImm (.instr (.unrecognized (progCell s s.pc.toNat))) = none

/-- R82, R83: a recognized one-cell opcode decodes to its instruction with length 1 and no immediate; a two-cell
opcode decodes with length 2 and the signed reading of the next cell, or, in the last cell of the store, as `Break`
of length 1. Decode changes no state in either case. -/
def Obligations.FetchOfAKnownOpcode : Prop :=
  ∀ s m, s.cfg.opcodeMap.Injective → s.pc.toNat < s.cfg.programSize →
    progCell s s.pc.toNat = opcodeOf s.cfg.opcodeMap m →
    (m ∉ [.push, .je, .jne, .jump] →
      ∃ i, fetchDecode s = .next (.instr i, s) ∧ instrTag i = m ∧ i.wellFormed s.cfg.opcodeMap = true ∧
        instrLen i = 1 ∧ instrImm i = none) ∧
    (m ∈ [.push, .je, .jne, .jump] →
      (s.cfg.programSize ≤ s.pc.toNat + 1 →
        fetchDecode s = .next (.truncated, s) ∧ decodedTag .truncated = .brk ∧ decodedLen .truncated = 1) ∧
      (s.pc.toNat + 1 < s.cfg.programSize →
        ∃ i, fetchDecode s = .next (.instr i, s) ∧ instrTag i = m ∧ i.wellFormed s.cfg.opcodeMap = true ∧
          instrLen i = 2 ∧ instrImm i = some (s32 (progCell s (s.pc.toNat + 1)))))

/-! ## The step -/

/-- R80, R93, R95: when a step may begin and the cells at pc are those of a well-formed instruction, the step is
that instruction's handler and end of step, and nothing else. -/
def Obligations.StepRunsTheInstructionAtPc : Prop :=
  ∀ s i, s.cfg.opcodeMap.Injective → i.wellFormed s.cfg.opcodeMap = true → stepAllowed s = true →
    Holds s s.pc.toNat i → step s = exec i s

/-- R142, R81, R93: the step of an out-of-range pc ends in `Break` with PC_OUT_OF_RANGE, counts, and leaves pc + 1
modulo 2^32 (the width is D5, the code D9). -/
def Obligations.StepBeyondTheStore : Prop :=
  ∀ s, stepAllowed s = true → s.cfg.programSize ≤ s.pc.toNat →
    ∃ t, step s = .next t ∧ Leaves s t (s.pc + 1) (liveStack s) .brk .pcOutOfRange ∧ SameDevices s t

/-- R143: a two-cell opcode in the last cell of the store ends the step in `Break` with TRUNCATED_INSTRUCTION and
pc = PROGRAM_SIZE. -/
def Obligations.StepOfATruncatedInstruction : Prop :=
  ∀ s m, s.cfg.WellFormed → stepAllowed s = true → m ∈ [Mnemonic.push, .je, .jne, .jump] →
    progCell s s.pc.toNat = opcodeOf s.cfg.opcodeMap m → s.pc.toNat < s.cfg.programSize →
    s.cfg.programSize ≤ s.pc.toNat + 1 →
    ∃ t, step s = .next t ∧ Leaves s t (s.pc + 1) (liveStack s) .brk .truncatedInstruction ∧
      SameDevices s t ∧ t.pc.toNat = s.cfg.programSize

/-- R71, R148: a cell outside OPCODE_MAP (under the default map, a value of 27 or more) ends the step in `Break` with
UNRECOGNIZED_OPCODE, with length 1 whatever the next cell holds. -/
def Obligations.UnrecognizedCellsBreak : Prop :=
  (∀ w, decodedTag (.instr (.unrecognized w)) = .brk ∧ decodedLen (.instr (.unrecognized w)) = 1 ∧
    decodedImm (.instr (.unrecognized w)) = none ∧
    decodedCause (.instr (.unrecognized w)) = some .unrecognizedOpcode) ∧
  (∀ s w, s.runState = .running → Breaks (.unrecognized w) s .unrecognizedOpcode (s.pc + 1) (liveStack s)) ∧
  (∀ s, stepAllowed s = true → s.pc.toNat < s.cfg.programSize →
    (∀ m, opcodeOf s.cfg.opcodeMap m ≠ progCell s s.pc.toNat) →
    ∃ t, step s = .next t ∧ Leaves s t (s.pc + 1) (liveStack s) .brk .unrecognizedOpcode ∧ SameDevices s t) ∧
  (∀ w : Word, (∀ m, opcodeOf defaultOpcodeMap m ≠ w) ↔ 27 ≤ w.toNat)

/-- R112, R149: `Break` is one cell, 26 by default. Every decoding with the `Break` tag, and only those, carries a
decode cause; from a `Running` state its step ends in `Break` with that cause, length 1 and the stack as it was. -/
def Obligations.BreakDecodingsEndTheRun : Prop :=
  EncodesOneCell .brk 26 ∧ decodedCause (.instr .brk) = some .explicitBreak ∧
  (∀ w, decodedCause (.instr (.unrecognized w)) = some .unrecognizedOpcode) ∧
  decodedCause .truncated = some .truncatedInstruction ∧ decodedCause .pcOutOfRange = some .pcOutOfRange ∧
  (∀ d, decodedTag d = .brk ↔ ∃ c, decodedCause d = some c) ∧
  (∀ s d c, s.runState = .running → decodedCause d = some c →
    decodedLen d = 1 ∧ ∃ t, execDecoded d (afterDecode d s) = .next t ∧
      Leaves s t (s.pc + 1) (liveStack s) .brk c ∧ SameDevices s t) ∧
  (∀ s, s.runState = .running → Breaks .brk s .explicitBreak (s.pc + 1) (liveStack s))

/-- From R44, R95 and R108: a step begins only while `state = Running` and steps < step_budget; elsewhere nothing
changes, no print event is emitted and no draw is taken; and a new start sets `Running` again. Two parts are the
model's choice and no rule of the spec: the conjunct `started`, and with it that nothing changes before the first
start (log 7), and that `step` answers the same state where no step may begin (log 8). -/
def Obligations.NoStepOutsideARun : Prop :=
  (∀ s, stepAllowed s = true ↔ s.started = true ∧ s.runState = .running ∧ s.steps < s.stepBudget) ∧
  (∀ s, s.runState ≠ .running ∨ s.stepBudget ≤ s.steps ∨ s.started = false → step s = .next s) ∧
  (∀ s b d, s.runState ≠ .running → ∃ t, hostStart b d s = some t ∧ t.runState = .running)

/-! ## The stack primitives -/

/-- R87: `Push` fails exactly when sp would reach STACK_CAPACITY - 1, and then changes no entry and not sp; otherwise
it increments sp and stores the value there and nowhere else. At most STACK_CAPACITY - 1 entries are live. -/
def Obligations.PushPrimitive : Prop :=
  ∀ s v, SpInRange s →
    ((s.cfg.stackCapacity : Int) - 1 ≤ s32 s.sp + 1 →
      push v s = .next { s with runState := .brk, cause := .stackOverflow }) ∧
    (s32 s.sp + 1 < (s.cfg.stackCapacity : Int) - 1 →
      ∃ t, push v s = .next t ∧ t = { s with sp := t.sp, stack := t.stack } ∧ s32 t.sp = s32 s.sp + 1 ∧
        (stackEntry t (s32 t.sp).toNat = v) ∧
        (∀ k, k ≠ (s32 t.sp).toNat → stackEntry t k = stackEntry s k) ∧
        liveStack t = liveStack s ++ [v]) ∧
    (liveStack s).length + 1 ≤ s.cfg.stackCapacity

/-- R88: `Pop` on an empty stack sets `state = Break` and returns 0; otherwise it returns `stack[sp]` and decrements
sp, and every entry stays. -/
def Obligations.PopPrimitive : Prop :=
  ∀ s, SpInRange s →
    (s32 s.sp < 0 → pop s = .next (0, { s with runState := .brk, cause := .stackUnderflow })) ∧
    (0 ≤ s32 s.sp →
      ∃ t, pop s = .next (stackEntry s (s32 s.sp).toNat, t) ∧ t = { s with sp := t.sp } ∧
        s32 t.sp = s32 s.sp - 1 ∧ liveStack s = liveStack t ++ [stackEntry s (s32 s.sp).toNat])

/-- R89: `PickAt(n)` fails exactly when n > sp, n read as unsigned (the spec's decision D14), and then returns 0;
otherwise it returns `stack[sp - n]` and changes nothing. -/
def Obligations.PickAtPrimitive : Prop :=
  ∀ s (n : Word), SpInRange s →
    (s32 s.sp < n.toNat →
      pickAt n s = .next (0, { s with runState := .brk, cause := .invalidPickDepth })) ∧
    ((n.toNat : Int) ≤ s32 s.sp →
      pickAt n s = .next (stackEntry s (s32 s.sp - n.toNat).toNat, s) ∧
      (liveStack s)[(s32 s.sp - n.toNat).toNat]? = some (stackEntry s (s32 s.sp - n.toNat).toNat))

/-! ## Control instructions -/

/-- R110. -/
def Obligations.NopHasNoEffect : Prop :=
  EncodesOneCell .nop 0 ∧
  ∀ s, s.runState = .running → Completes .nop s (s.pc + 1) (liveStack s)

/-- R111: `Halt` sets `Halted`, leaves the stack, still advances pc and counts; the run ends there whatever the
budget; and no other instruction's step reaches `Halted`. -/
def Obligations.HaltEndsTheRunHalted : Prop :=
  EncodesOneCell .halt 1 ∧
  (∀ s, s.runState = .running → ∃ t, exec .halt s = .next t ∧
    Leaves s t (s.pc + 1) (liveStack s) .halted s.cause ∧ SameDevices s t ∧ stepAllowed t = false) ∧
  (∀ s t i, s.runState = .running → exec i s = .next t → t.runState = .halted → i = .halt)

/-! ## Stack instructions -/

/-- R113: `Push v` pushes u32(v), whose signed reading is v; on a full stack it breaks with the stack unchanged; pc
advances by 2 in both cases; with no second cell it decodes as truncated. -/
def Obligations.PushStoresTheImmediate : Prop :=
  (∀ map : OpcodeMap, map.Injective → decode map [map.push] = .truncated) ∧
  ∀ v : Int, immInRange v →
    EncodesTwoCells (.push v) 2 v ∧ s32 (u32 v) = v ∧
    ∀ s, Ready s →
      ((liveStack s).length + 1 < s.cfg.stackCapacity →
        Completes (.push v) s (s.pc + 2) (liveStack s ++ [u32 v])) ∧
      ((liveStack s).length + 1 = s.cfg.stackCapacity →
        Breaks (.push v) s .stackOverflow (s.pc + 2) (liveStack s))

/-- R114: the popped entry leaves the live stack and stays in the array. -/
def Obligations.DropDiscardsTheTop : Prop :=
  EncodesOneCell .drop 14 ∧
  (∀ s t, exec .drop s = .next t → ∀ k, stackEntry t k = stackEntry s k) ∧
  ∀ s, Ready s →
    (∀ xs x, liveStack s = xs ++ [x] → Completes .drop s (s.pc + 1) xs) ∧
    (liveStack s = [] → Breaks .drop s .stackUnderflow (s.pc + 1) [])

/-- R115. That the stack is as it was after an overflow is the spec's own inference "the stack ends as it was before
the instruction [derived: from rules R87 and R88]". -/
def Obligations.DupDoublesTheTop : Prop :=
  EncodesOneCell .dup 5 ∧
  ∀ s, Ready s →
    (∀ xs x, liveStack s = xs ++ [x] →
      (xs.length + 2 < s.cfg.stackCapacity → Completes .dup s (s.pc + 1) (xs ++ [x, x])) ∧
      (xs.length + 2 = s.cfg.stackCapacity → Breaks .dup s .stackOverflow (s.pc + 1) (xs ++ [x]))) ∧
    (liveStack s = [] → Breaks .dup s .stackUnderflow (s.pc + 1) [])

/-- R116. That the pushes cannot fail is the spec's own inference "they refill the two slots just freed [derived: from
rule R87]". -/
def Obligations.SwapExchangesTheTopTwo : Prop :=
  EncodesOneCell .swap 4 ∧
  ∀ s, Ready s →
    (∀ xs x y, liveStack s = xs ++ [x, y] → Completes .swap s (s.pc + 1) (xs ++ [y, x])) ∧
    ((liveStack s).length < 2 → Breaks .swap s .stackUnderflow (s.pc + 1) [])

/-- R117. That the stack is as it was after an overflow is the spec's own inference "[derived: from rule R87]". -/
def Obligations.OverCopiesTheSecond : Prop :=
  EncodesOneCell .ovr 6 ∧
  ∀ s, Ready s →
    (∀ xs x y, liveStack s = xs ++ [x, y] →
      (xs.length + 3 < s.cfg.stackCapacity → Completes .ovr s (s.pc + 1) (xs ++ [x, y, x])) ∧
      (xs.length + 3 = s.cfg.stackCapacity → Breaks .ovr s .stackOverflow (s.pc + 1) (xs ++ [x, y]))) ∧
    ((liveStack s).length < 2 → Breaks .ovr s .stackUnderflow (s.pc + 1) [])

/-- R118: the top moves to the third position. That the pushes cannot fail is the spec's own inference "[derived:
from rule R87]". -/
def Obligations.RotMovesTheTopToThird : Prop :=
  EncodesOneCell .rot 23 ∧
  ∀ s, Ready s →
    (∀ xs x y z, liveStack s = xs ++ [x, y, z] → Completes .rot s (s.pc + 1) (xs ++ [z, x, y])) ∧
    ((liveStack s).length < 3 → Breaks .rot s .stackUnderflow (s.pc + 1) [])

/-- R119: n is the popped word, read as unsigned (D14), and the entry n below the new top is copied; a depth beyond
the stack breaks with n gone. That the push cannot fail is the spec's own inference "[derived: from rule R87]". -/
def Obligations.PickCopiesTheEntryAtDepth : Prop :=
  EncodesOneCell .pick 25 ∧
  ∀ s, Ready s →
    (∀ xs v ys n, liveStack s = xs ++ [v] ++ ys ++ [n] → n.toNat = ys.length →
      Completes .pick s (s.pc + 1) (xs ++ [v] ++ ys ++ [v])) ∧
    (∀ xs n, liveStack s = xs ++ [n] → xs.length ≤ n.toNat →
      Breaks .pick s .invalidPickDepth (s.pc + 1) xs) ∧
    (liveStack s = [] → Breaks .pick s .stackUnderflow (s.pc + 1) [])

/-! ## Arithmetic instructions -/

/-- R120, R121. -/
def Obligations.IncAndDecStepByOne : Prop :=
  EncodesOneCell .inc 7 ∧ EncodesOneCell .dec 13 ∧
  ∀ s, Ready s →
    (∀ xs x, liveStack s = xs ++ [x] →
      Completes .inc s (s.pc + 1) (xs ++ [u32 (x.toNat + 1)]) ∧
      Completes .dec s (s.pc + 1) (xs ++ [u32 (x.toNat - 1 : Int)])) ∧
    (liveStack s = [] →
      Breaks .inc s .stackUnderflow (s.pc + 1) [] ∧ Breaks .dec s .stackUnderflow (s.pc + 1) [])

/-- R122. The wrap is the spec's own inference "[derived: from IC §3]" (D13). -/
def Obligations.AddIsTheSumModulo : Prop :=
  EncodesOneCell .add 8 ∧
  ∀ s, Ready s →
    (∀ xs x y, liveStack s = xs ++ [x, y] →
      Completes .add s (s.pc + 1) (xs ++ [u32 (y.toNat + x.toNat)])) ∧
    ((liveStack s).length < 2 → Breaks .add s .stackUnderflow (s.pc + 1) [])

/-- R123: the top minus the entry below it. -/
def Obligations.SubIsTopMinusSecond : Prop :=
  EncodesOneCell .sub 9 ∧
  ∀ s, Ready s →
    (∀ xs x y, liveStack s = xs ++ [x, y] →
      Completes .sub s (s.pc + 1) (xs ++ [u32 ((y.toNat : Int) - x.toNat)])) ∧
    ((liveStack s).length < 2 → Breaks .sub s .stackUnderflow (s.pc + 1) [])

/-- R124. The reduction modulo 2^32 is the spec's own inference "[derived: from IC §3]" (D13). -/
def Obligations.MulIsTheLowHalfOfTheProduct : Prop :=
  EncodesOneCell .mul 11 ∧
  ∀ s, Ready s →
    (∀ xs x y, liveStack s = xs ++ [x, y] →
      Completes .mul s (s.pc + 1) (xs ++ [u32 ((y.toNat : Int) * x.toNat)])) ∧
    ((liveStack s).length < 2 → Breaks .mul s .stackUnderflow (s.pc + 1) [])

/-- R125, R147: underflow is checked first; a zero divisor breaks whatever the dividend, with both operands gone. That
the remainder is unsigned is the spec's own inference (D17). -/
def Obligations.ModIsTopModuloSecond : Prop :=
  EncodesOneCell .mod 10 ∧
  ∀ s, Ready s →
    (∀ xs x y, liveStack s = xs ++ [x, y] →
      (x ≠ 0 → Completes .mod s (s.pc + 1) (xs ++ [u32 ((y.toNat : Int) % x.toNat)])) ∧
      (x = 0 → Breaks .mod s .divisionByZero (s.pc + 1) xs)) ∧
    ((liveStack s).length < 2 → Breaks .mod s .stackUnderflow (s.pc + 1) [])

/-- R126: the result is the largest r with r*r at most the operand, exactly. -/
def Obligations.SqrtIsTheExactFloor : Prop :=
  EncodesOneCell .sqrt 24 ∧
  ∀ s, Ready s →
    (∀ xs x, liveStack s = xs ++ [x] →
      ∃ r : Word, r.toNat * r.toNat ≤ x.toNat ∧ x.toNat < (r.toNat + 1) * (r.toNat + 1) ∧
        r.toNat ≤ 65535 ∧ Completes .sqrt s (s.pc + 1) (xs ++ [r])) ∧
    (liveStack s = [] → Breaks .sqrt s .stackUnderflow (s.pc + 1) [])

/-! ## Bitwise instructions -/

/-- R127, R128, R129. -/
def Obligations.AndOrXorActBitwise : Prop :=
  EncodesOneCell .and 18 ∧ EncodesOneCell .or 19 ∧ EncodesOneCell .xor 20 ∧
  ∀ s, Ready s →
    (∀ xs x y, liveStack s = xs ++ [x, y] →
      ∃ p q r : Word, (∀ k, k < 32 → p.getLsbD k = (y.getLsbD k && x.getLsbD k)) ∧
        (∀ k, k < 32 → q.getLsbD k = (y.getLsbD k || x.getLsbD k)) ∧
        (∀ k, k < 32 → r.getLsbD k = (y.getLsbD k != x.getLsbD k)) ∧
        Completes .and s (s.pc + 1) (xs ++ [p]) ∧ Completes .or s (s.pc + 1) (xs ++ [q]) ∧
        Completes .xor s (s.pc + 1) (xs ++ [r])) ∧
    ((liveStack s).length < 2 →
      Breaks .and s .stackUnderflow (s.pc + 1) [] ∧ Breaks .or s .stackUnderflow (s.pc + 1) [] ∧
      Breaks .xor s .stackUnderflow (s.pc + 1) [])

/-- R130: the top is shifted left by the whole word below it; for an amount of 32 or more the state stays `Running`
and the result is the draw SHIFT_LARGE, any word (the spec's decision D15; log 10). -/
def Obligations.ShlShiftsTheTopLeft : Prop :=
  EncodesOneCell .shl 21 ∧
  ∀ s, Ready s →
    (∀ xs x y, liveStack s = xs ++ [x, y] →
      (x.toNat < 32 → Completes .shl s (s.pc + 1) (xs ++ [u32 ((y.toNat : Int) * 2 ^ x.toNat)])) ∧
      (32 ≤ x.toNat → ∃ t, exec .shl s = .next t ∧
        Leaves s t (s.pc + 1) (xs ++ [Config.shiftLarge s.draws]) .running s.cause ∧
        t.out = s.out ∧ t.randData = s.randData ∧ t.draws = s.draws + 1)) ∧
    ((liveStack s).length < 2 → Breaks .shl s .stackUnderflow (s.pc + 1) [])

/-- R131: the same to the right, zeros entering at bit 31 (the spec's own inference, D16); 32 or more gives the draw
SHIFT_LARGE (D15; log 10). -/
def Obligations.ShrShiftsTheTopRightLogically : Prop :=
  EncodesOneCell .shr 22 ∧
  ∀ s, Ready s →
    (∀ xs x y, liveStack s = xs ++ [x, y] →
      (x.toNat < 32 → Completes .shr s (s.pc + 1) (xs ++ [u32 ((y.toNat : Int) / 2 ^ x.toNat)])) ∧
      (32 ≤ x.toNat → ∃ t, exec .shr s = .next t ∧
        Leaves s t (s.pc + 1) (xs ++ [Config.shiftLarge s.draws]) .running s.cause ∧
        t.out = s.out ∧ t.randData = s.randData ∧ t.draws = s.draws + 1)) ∧
    ((liveStack s).length < 2 → Breaks .shr s .stackUnderflow (s.pc + 1) [])

/-! ## Control transfer -/

/-- R132: the popped word decides; the net displacement is imm + 2, modulo 2^32; no jump on underflow. -/
def Obligations.JeJumpsOnZero : Prop :=
  ∀ imm : Int, EncodesTwoCells (.je imm) 15 imm ∧
  ∀ s, Ready s →
    (∀ xs, liveStack s = xs ++ [0] → Completes (.je imm) s (u32 (s.pc.toNat + imm + 2)) xs) ∧
    (∀ xs x, x ≠ 0 → liveStack s = xs ++ [x] → Completes (.je imm) s (s.pc + 2) xs) ∧
    (liveStack s = [] → Breaks (.je imm) s .stackUnderflow (s.pc + 2) [])

/-- R133. -/
def Obligations.JneJumpsOnNonzero : Prop :=
  ∀ imm : Int, EncodesTwoCells (.jne imm) 16 imm ∧
  ∀ s, Ready s →
    (∀ xs x, x ≠ 0 → liveStack s = xs ++ [x] → Completes (.jne imm) s (u32 (s.pc.toNat + imm + 2)) xs) ∧
    (∀ xs, liveStack s = xs ++ [0] → Completes (.jne imm) s (s.pc + 2) xs) ∧
    (liveStack s = [] → Breaks (.jne imm) s .stackUnderflow (s.pc + 2) [])

/-- R134: an unconditional jump; a target outside the store is no error of this step, and the next fetch breaks; and
`Jump -2` is the one-instruction loop, which only the budget ends. -/
def Obligations.JumpAddsTheImmediate : Prop :=
  (∀ imm : Int, EncodesTwoCells (.jump imm) 17 imm ∧
    ∀ s, s.runState = .running →
      Completes (.jump imm) s (u32 (s.pc.toNat + imm + 2)) (liveStack s) ∧
      (∀ t, exec (.jump imm) s = .next t → stepAllowed t = true → t.cfg.programSize ≤ t.pc.toNat →
        ∃ u, step t = .next u ∧ u.runState = .brk ∧ u.cause = .pcOutOfRange ∧ u.pc = t.pc + 1)) ∧
  (∀ s, s.Inv → stepAllowed s = true → Holds s s.pc.toNat (.jump (-2)) →
    ∃ t, run (s.stepBudget.toNat - s.steps.toNat) s = some (.next t) ∧ t.runState = .running ∧
      t.steps = s.stepBudget ∧ t.pc = s.pc ∧ liveStack t = liveStack s)

/-! ## Environment instructions -/

/-- R135: `Print` pops the top and emits it as one event after the earlier ones; on an empty stack nothing is emitted
(the spec's decision D21). -/
def Obligations.PrintEmitsTheTop : Prop :=
  EncodesOneCell .print 3 ∧
  ∀ s, Ready s →
    (∀ xs x, liveStack s = xs ++ [x] → ∃ t, exec .print s = .next t ∧
      Leaves s t (s.pc + 1) xs .running s.cause ∧ t.out = s.out ++ [x] ∧ printEvent s t = some x ∧
      t.randData = s.randData ∧ t.draws = s.draws) ∧
    (liveStack s = [] → Breaks .print s .stackUnderflow (s.pc + 1) [])

/-- R136: `Rand` takes one draw and pushes it; on a full stack the draw is discarded and the stack is unchanged. The
draw is the word on `rand_data`, or, where the state lists none, a free value (the spec's decision D18; log 9). -/
def Obligations.RandPushesADraw : Prop :=
  EncodesOneCell .rand 12 ∧
  ∀ s, Ready s →
    ∃ (r : Word) (rest : List Word) (n : Nat),
      (s.randData = r :: rest ∧ n = s.draws ∨
        s.randData = [] ∧ rest = [] ∧ r = Config.randDraw s.draws ∧ n = s.draws + 1) ∧
      ((liveStack s).length + 1 < s.cfg.stackCapacity → ∃ t, exec .rand s = .next t ∧
        Leaves s t (s.pc + 1) (liveStack s ++ [r]) .running s.cause ∧
        t.out = s.out ∧ t.randData = rest ∧ t.draws = n) ∧
      ((liveStack s).length + 1 = s.cfg.stackCapacity → ∃ t, exec .rand s = .next t ∧
        Leaves s t (s.pc + 1) (liveStack s) .brk .stackOverflow ∧
        t.out = s.out ∧ t.randData = rest ∧ t.draws = n)

/-! ## Rules over all instructions -/

/-- R145, R91: with fewer live entries than an instruction pops, it breaks with STACK_UNDERFLOW and the stack ends
empty, and in no other case does an instruction raise that cause. -/
def Obligations.UnderflowExactlyWhenOperandsAreMissing : Prop :=
  ∀ s i, Ready s →
    ((liveStack s).length < popCount i →
      Breaks i s .stackUnderflow (s.pc + BitVec.ofNat 32 (instrLen i)) []) ∧
    (∀ t, exec i s = .next t → t.runState = .brk → t.cause = .stackUnderflow →
      (liveStack s).length < popCount i)

/-- R144: STACK_OVERFLOW is raised exactly by `Push`, `Rand`, `Dup` and `Over` on a full stack that holds their
operands, and the stack is then as it was. That no other instruction raises it is the spec's own inference "[derived:
from rule R87]". -/
def Obligations.OverflowExactlyOnAFullStack : Prop :=
  ∀ s i t, Ready s → exec i s = .next t →
    ((t.runState = .brk ∧ t.cause = .stackOverflow) ↔
      (liveStack s).length + 1 = s.cfg.stackCapacity ∧ popCount i ≤ (liveStack s).length ∧
        popCount i < pushCount i) ∧
    (t.runState = .brk → t.cause = .stackOverflow → liveStack t = liveStack s)

/-- R20, R29, R48, R93: every instruction that completes its step, in whatever state it is executed, leaves the run
inputs, the parameters and every cell of the program store as they were, and counts exactly once. -/
def Obligations.InstructionsKeepTheRunInputs : Prop :=
  ∀ i s t, exec i s = .next t →
    t.cfg = s.cfg ∧ t.stepBudget = s.stepBudget ∧ t.dispatchStrategy = s.dispatchStrategy ∧
    t.started = s.started ∧ t.powerOn = s.powerOn ∧ (∀ a, progCell t a = progCell s a) ∧
    t.steps = s.steps + 1

/-- R54, R87: an instruction writes only stack entries at the slots its pushes reach once its pops are done, the
`pushCount i` slots above sp - popCount i; every other entry of the array reads as before, live or not. -/
def Obligations.InstructionsWriteOnlyTheirStackSlots : Prop :=
  ∀ i s t, exec i s = .next t → ∀ k : Nat,
    ¬ (s32 s.sp - popCount i < k ∧ (k : Int) ≤ s32 s.sp - popCount i + pushCount i) →
    stackEntry t k = stackEntry s k

/-- An instruction with an empty stack picture leaves sp and every entry of the stack array as they were. -/
def Obligations.InstructionsWithoutOperandsKeepTheStack : Prop :=
  ∀ i s t, exec i s = .next t → popCount i = 0 → pushCount i = 0 →
    t.sp = s.sp ∧ (∀ k, stackEntry t k = stackEntry s k) ∧ liveStack t = liveStack s

/-- R62, R135, R136, R157: only `Print` emits, at most one event and after the earlier ones; only `Rand` takes from
the random source; only `Rand` and the two shifts take a free value. -/
def Obligations.OnlyDeviceInstructionsReachTheDevices : Prop :=
  ∀ i s t, exec i s = .next t →
    (i ≠ .print → t.out = s.out) ∧ (t.out = s.out ∨ ∃ v, t.out = s.out ++ [v]) ∧
    (i ≠ .rand → t.randData = s.randData) ∧
    (i ≠ .rand → i ≠ .shl → i ≠ .shr → t.draws = s.draws)

/-- R105, R107, R109, R140: in a step that begins `Running`, an instruction leaves state and cause as they were, or
is `Halt` and leaves the cause, or reaches `Break` with a cause other than NONE; nothing else happens to them. -/
def Obligations.OneTransitionPerStep : Prop :=
  ∀ i s t, s.runState = .running → exec i s = .next t →
    (t.runState = .running ∧ t.cause = s.cause) ∨
    (i = .halt ∧ t.runState = .halted ∧ t.cause = s.cause) ∨
    (t.runState = .brk ∧ t.cause ≠ .noCause)

/-- R106: a step that reaches `Halted` executed the `Halt` opcode at pc. -/
def Obligations.HaltedOnlyByHalt : Prop :=
  ∀ s t, s.runState = .running → step s = .next t → t.runState = .halted →
    fetchDecode s = .next (.instr .halt, s)

/-- R32, R140 (the register is the spec's own, D9): a step changes the cause only when it takes the state from
`Running` to `Break`. -/
def Obligations.CauseIsWrittenOnce : Prop :=
  ∀ s t, step s = .next t → t.cause ≠ s.cause → s.runState = .running ∧ t.runState = .brk

/-! ## Encoding -/

/-- R67, R68, R78, R79: under any injective map, decoding the cells of a well-formed instruction, whatever follows
them, gives that instruction back, with every immediate at every s32 value. -/
def Obligations.DecodeOfEncodeIsTheInstruction : Prop :=
  ∀ (map : OpcodeMap) i rest, map.Injective → i.wellFormed map = true →
    decode map (encode map i ++ rest) = .instr i

/-- R65, R72, R78: what decodes to an instruction begins with that instruction's cells, so no bit of a cell is
dropped. -/
def Obligations.DecodedCellsAreTheEncoding : Prop :=
  ∀ (map : OpcodeMap) cells i, decode map cells = .instr i →
    i.wellFormed map = true ∧ ∃ rest, cells = encode map i ++ rest

/-- 95_test_vectors.md: a word of each family under the default map, written out from R70 and R67. -/
def Obligations.SampleWordsDecode : Prop :=
  decode defaultOpcodeMap [0#32] = .instr .nop ∧ decode defaultOpcodeMap [26#32] = .instr .brk ∧
  decode defaultOpcodeMap [2#32, 0x80000000#32] = .instr (.push (-2147483648)) ∧
  decode defaultOpcodeMap [23#32] = .instr .rot ∧ decode defaultOpcodeMap [9#32] = .instr .sub ∧
  decode defaultOpcodeMap [22#32] = .instr .shr ∧
  decode defaultOpcodeMap [17#32, 0xFFFFFFFE#32] = .instr (.jump (-2)) ∧
  decode defaultOpcodeMap [3#32] = .instr .print ∧
  decode defaultOpcodeMap [27#32, 1#32] = .instr (.unrecognized 27) ∧
  decode defaultOpcodeMap [16#32] = .truncated

/-! ## Runs -/

/-- R102, R96, R101: the central loop and the handler chain end the same runs in the same states, with every
register, every print event and every draw equal; they differ only in how control passes on. -/
def Obligations.StrategiesAgree : Prop := ∀ fuel s, runLoop fuel s = runHandlers fuel s

/-- R97, R98: a run ends where no step may begin: in `Halted` or `Break`, or `Running` with the budget exactly used
up. -/
def Obligations.RunsEndTerminalOrAtTheBudget : Prop :=
  ∀ fuel s t, s.Inv → s.started = true → run fuel s = some (.next t) →
    stepAllowed t = false ∧
    (t.runState = .halted ∨ t.runState = .brk ∨ t.runState = .running ∧ t.steps = t.stepBudget)

/-- R97: the budget is a hard ceiling: under either strategy every run ends within step_budget - steps steps, in a
next state whose count does not exceed the budget. -/
def Obligations.TheBudgetBoundsEveryRun : Prop :=
  ∀ s, s.Inv → ∃ t, run (s.stepBudget.toNat - s.steps.toNat) s = some (.next t) ∧
    t.stepBudget = s.stepBudget ∧ t.steps.toNat ≤ s.stepBudget.toNat

/-- R99: status at the end of a run: success for `Halted` and for `Running` with the budget used up, failure for
`Break`. -/
def Obligations.RunStatusFollowsTheFinalState : Prop :=
  ∀ s, doneOut s = true →
    (statusOut s = some true ↔ s.runState = .halted ∨ s.runState = .running ∧ s.steps = s.stepBudget) ∧
    (s.runState = .brk → statusOut s = some false)

/-- R37, R39: FinalState lists stack[0] .. stack[sp], and the host reads the same words through the stack port. -/
def Obligations.StackPortReadsFinalState : Prop :=
  ∀ s, SpInRange s → ((finalState s).stack.length : Int) = s32 s.sp + 1 ∧
    ∀ a : Word, (a.toNat : Int) ≤ s32 s.sp → (finalState s).stack[a.toNat]? = some (stackOut a s)
end

