-- ==== Sys2Proof/Laws/Alu.lean ====
section
/-!
SUPPORT. The arithmetic results as the spec writes them: exact integers, narrowed by `u32` (R8).
-/

namespace Sys2Proof.Machine

@[simp] theorem u32_toNat (a : Word) : u32 (a.toNat : Int) = a := by
  simp [u32]

theorem u32_natCast (n : Nat) : u32 (n : Int) = BitVec.ofNat 32 n := by
  simp [u32]

theorem u32_add (i j : Int) : u32 (i + j) = u32 i + u32 j := BitVec.ofInt_add ..

theorem u32_mul (i j : Int) : u32 (i * j) = u32 i * u32 j := BitVec.ofInt_mul ..

theorem u32_sub (i j : Int) : u32 (i - j) = u32 i - u32 j := by
  rw [Int.sub_eq_add_neg, u32_add, BitVec.sub_eq_add_neg]
  congr 1
  exact BitVec.ofInt_neg ..

theorem aluInc_eq (a : Word) : aluInc a = u32 (a.toNat + 1) := by
  rw [u32_add, u32_toNat]
  rfl

theorem aluDec_eq (a : Word) : aluDec a = u32 (a.toNat - 1 : Int) := by
  rw [u32_sub, u32_toNat]
  rfl

theorem aluAdd_eq (a b : Word) : aluAdd a b = u32 (a.toNat + b.toNat) := by
  rw [u32_add, u32_toNat, u32_toNat]
  rfl

theorem aluSub_eq (a b : Word) : aluSub a b = u32 ((a.toNat : Int) - b.toNat) := by
  rw [u32_sub, u32_toNat, u32_toNat]
  rfl

theorem aluMul_eq (a b : Word) : aluMul a b = u32 ((a.toNat : Int) * b.toNat) := by
  rw [u32_mul, u32_toNat, u32_toNat]
  rfl

theorem aluMod_eq (a b : Word) : aluMod a b = u32 ((a.toNat : Int) % b.toNat) := by
  rw [← Int.natCast_mod, u32_natCast]
  apply BitVec.eq_of_toNat_eq
  have := Nat.mod_le a.toNat b.toNat
  have := a.isLt
  rw [BitVec.toNat_ofNat, Nat.mod_eq_of_lt (b := 2 ^ 32) (by omega)]
  simp [aluMod]

theorem aluShl_eq (a b : Word) : aluShl a b = u32 ((a.toNat : Int) * 2 ^ b.toNat) := by
  have h : ((a.toNat : Int) * 2 ^ b.toNat) = ((a.toNat * 2 ^ b.toNat : Nat) : Int) := by push_cast; rfl
  rw [h, u32_natCast]
  apply BitVec.eq_of_toNat_eq
  simp [aluShl, Nat.shiftLeft_eq]

theorem aluShr_eq (a b : Word) : aluShr a b = u32 ((a.toNat : Int) / 2 ^ b.toNat) := by
  have h : ((a.toNat : Int) / 2 ^ b.toNat) = ((a.toNat / 2 ^ b.toNat : Nat) : Int) := by push_cast; rfl
  rw [h, u32_natCast]
  apply BitVec.eq_of_toNat_eq
  have := Nat.div_le_self a.toNat (2 ^ b.toNat)
  have := a.isLt
  rw [BitVec.toNat_ofNat, Nat.mod_eq_of_lt (b := 2 ^ 32) (by omega)]
  simp [aluShr, Nat.shiftRight_eq_div_pow]

/-- Settling the bits below bit n of a root between r and r + 2^n gives the exact root. -/
theorem rootBits_spec (a n r : Nat) (h1 : r * r ≤ a) (h2 : a < (r + 2 ^ n) * (r + 2 ^ n)) :
    rootBits a n r * rootBits a n r ≤ a ∧ a < (rootBits a n r + 1) * (rootBits a n r + 1) := by
  induction n generalizing r with
  | zero => exact ⟨h1, by simpa [rootBits] using h2⟩
  | succ k ih =>
    simp only [rootBits]
    split
    · refine ih _ ‹_› ?_
      rwa [Nat.add_assoc, ← Nat.two_mul, ← Nat.pow_succ']
    · exact ih _ h1 (by omega)

/-- The root is at most 65535. -/
theorem rootBits_lt {a : Word} : rootBits a.toNat 16 0 < 65536 := by
  have h := (rootBits_spec a.toNat 16 0 (by omega) (by have := a.isLt; omega)).1
  have := a.isLt
  by_contra hc
  have : 65536 * 65536 ≤ rootBits a.toNat 16 0 * rootBits a.toNat 16 0 :=
    Nat.mul_le_mul (not_lt.1 hc) (not_lt.1 hc)
  omega

theorem aluSqrt_toNat (a : Word) : (aluSqrt a).toNat = rootBits a.toNat 16 0 := by
  have := rootBits_lt (a := a)
  simp [aluSqrt]
  omega

end Sys2Proof.Machine
end

