-- ==== Sys2Proof/Laws/Decode.lean ====
section
/-!
SUPPORT. What the opcode lookup, the decoder and the encoder do, once.
-/

namespace Sys2Proof

@[simp] theorem mem_allMnemonics (m : Mnemonic) : m ∈ allMnemonics := by
  cases m <;> decide

/-- Under an injective map two mnemonics with one value are one mnemonic (R6). -/
theorem OpcodeMap.Injective.eq {map : OpcodeMap} (h : map.Injective) {m n : Mnemonic}
    (he : opcodeOf map m = opcodeOf map n) : m = n :=
  List.inj_on_of_nodup_map h (mem_allMnemonics m) (mem_allMnemonics n) he

/-- The lookup answers a mnemonic whose value the cell is. -/
theorem opcodeOf_of_lookupOpcode {map : OpcodeMap} {w : Word} {m : Mnemonic}
    (h : lookupOpcode map w = some m) : opcodeOf map m = w := by
  have := List.find?_some h
  simpa using this

/-- The lookup fails exactly on a cell that is no mnemonic's value (R71). -/
theorem lookupOpcode_eq_none {map : OpcodeMap} {w : Word} :
    lookupOpcode map w = none ↔ ∀ m, opcodeOf map m ≠ w := by
  simp [lookupOpcode]

/-- Under an injective map the lookup finds every mnemonic by its value. -/
theorem lookupOpcode_opcodeOf {map : OpcodeMap} (h : map.Injective) (m : Mnemonic) :
    lookupOpcode map (opcodeOf map m) = some m := by
  cases hl : lookupOpcode map (opcodeOf map m) with
  | none => exact absurd rfl (lookupOpcode_eq_none.1 hl m)
  | some n => rw [h.eq (opcodeOf_of_lookupOpcode hl)]

/-- An s32 survives the round trip through its word (R68). -/
theorem s32_u32 {imm : Int} (h : immInRange imm) : s32 (u32 imm) = imm := by
  unfold s32 u32
  obtain ⟨h1, h2⟩ := h
  rw [BitVec.toInt_ofInt, Int.bmod_eq_of_le] <;> norm_num at * <;> omega

/-- A word survives the round trip through its signed reading. -/
@[simp] theorem u32_s32 (w : Word) : u32 (s32 w) = w := by
  simp [u32, s32]

/-- The signed reading of any cell is an s32 (R67). -/
theorem immInRange_s32 (w : Word) : immInRange (s32 w) := by
  have h1 := BitVec.le_toInt w
  have h2 := BitVec.toInt_lt (x := w)
  unfold immInRange s32
  norm_num at *
  omega

@[simp] theorem decode_nil (map : OpcodeMap) : decode map [] = .pcOutOfRange := rfl

/-- A cell outside the map, whatever follows (R71). -/
theorem decode_unrecognized {map : OpcodeMap} {w : Word} (h : lookupOpcode map w = none) (rest : List Word) :
    decode map (w :: rest) = .instr (.unrecognized w) := by
  simp [decode, h]

/-- A one-cell opcode, whatever follows (R82). -/
theorem decode_oneCell {map : OpcodeMap} {w : Word} {m : Mnemonic} {i : Instr} (h : lookupOpcode map w = some m)
    (hi : oneCellInstr m = some i) (rest : List Word) : decode map (w :: rest) = .instr i := by
  simp [decode, h, hi]

/-- A two-cell opcode with its second cell (R83). -/
theorem decode_twoCells {map : OpcodeMap} {w : Word} {m : Mnemonic} (h : lookupOpcode map w = some m)
    (hi : oneCellInstr m = none) (v : Word) (rest : List Word) :
    decode map (w :: v :: rest) = .instr (twoCellInstr m (s32 v)) := by
  simp [decode, h, hi]

/-- A two-cell opcode with nothing after it (R83). -/
theorem decode_truncated {map : OpcodeMap} {w : Word} {m : Mnemonic} (h : lookupOpcode map w = some m)
    (hi : oneCellInstr m = none) : decode map [w] = .truncated := by
  simp [decode, h, hi]

/-- The two-cell mnemonics are the four of R64. -/
theorem oneCellInstr_eq_none {m : Mnemonic} : oneCellInstr m = none ↔ m ∈ [.push, .je, .jne, .jump] := by
  cases m <;> decide

/-- A one-cell mnemonic's instruction has that tag, length 1 and no immediate. -/
theorem oneCellInstr_spec {m : Mnemonic} {i : Instr} (h : oneCellInstr m = some i) (map : OpcodeMap) :
    instrTag i = m ∧ instrLen i = 1 ∧ instrImm i = none ∧ i.wellFormed map = true ∧
      encode map i = [opcodeOf map m] := by
  cases m <;> cases h <;> exact ⟨rfl, rfl, rfl, rfl, rfl⟩

/-- A two-cell mnemonic's instruction has that tag, length 2 and that immediate. -/
theorem twoCellInstr_spec {m : Mnemonic} (h : oneCellInstr m = none) (imm : Int) (map : OpcodeMap) :
    instrTag (twoCellInstr m imm) = m ∧ instrLen (twoCellInstr m imm) = 2 ∧
      instrImm (twoCellInstr m imm) = some imm ∧
      (twoCellInstr m imm).wellFormed map = decide (immInRange imm) ∧
      encode map (twoCellInstr m imm) = [opcodeOf map m, u32 imm] := by
  cases m <;> first | (cases h; done) | exact ⟨rfl, rfl, rfl, rfl, rfl⟩

end Sys2Proof
end

