-- ==== Sys2Proof/Laws/Memory.lean ====
section
/-!
SUPPORT. The laws of the two storage spaces: read after write, and the canonical form.
-/

namespace Sys2Proof.Machine

@[simp] theorem memRead_nil (a : Nat) : memRead [] a = none := rfl

@[simp] theorem memRead_cons (k : Nat) (v : Word) (m : Memory) (a : Nat) :
    memRead ((k, v) :: m) a = if k = a then some v else memRead m a := rfl

/-- What was written is read back. -/
@[simp] theorem memRead_memWrite_same (m : Memory) (a : Nat) (v : Word) :
    memRead (memWrite m a v) a = some v := by
  induction m with
  | nil => simp [memWrite]
  | cons e m ih =>
    obtain ⟨k, w⟩ := e
    simp only [memWrite]
    split
    · simp
    · split
      · simp
      · rename_i hne
        have : k ≠ a := fun h => hne h.symm
        simp [this, ih]

/-- A write leaves every other index alone. -/
theorem memRead_memWrite_other (m : Memory) {a b : Nat} (v : Word) (h : b ≠ a) :
    memRead (memWrite m a v) b = memRead m b := by
  induction m with
  | nil => simp [memWrite, h.symm]
  | cons e m ih =>
    obtain ⟨k, w⟩ := e
    simp only [memWrite]
    split
    · simp [h.symm]
    · split
      · rename_i hak
        subst hak
        simp [h.symm]
      · simp [ih]

/-- Reading after a write, at any index. -/
theorem memRead_memWrite (m : Memory) (a b : Nat) (v : Word) :
    memRead (memWrite m a v) b = if b = a then some v else memRead m b := by
  split
  · subst_vars; simp
  · exact memRead_memWrite_other m v ‹_›

/-- A write lists nothing but the written index and what was listed. -/
theorem mem_of_mem_memWrite {m : Memory} {a : Nat} {v : Word} {e : Nat × Word}
    (h : e ∈ memWrite m a v) : e = (a, v) ∨ e ∈ m := by
  induction m with
  | nil => simpa [memWrite] using h
  | cons f m ih =>
    obtain ⟨k, w⟩ := f
    simp only [memWrite] at h
    split at h
    · simpa using h
    · split at h
      · rcases List.mem_cons.1 h with h | h
        · exact .inl h
        · exact .inr (List.mem_cons_of_mem _ h)
      · rcases List.mem_cons.1 h with h | h
        · exact .inr (h ▸ List.mem_cons_self)
        · exact (ih h).imp id (List.mem_cons_of_mem _)

/-- A write keeps the canonical form. -/
theorem memWrite_wf {m : Memory} (h : Memory.wf m) (a : Nat) (v : Word) : Memory.wf (memWrite m a v) := by
  induction m with
  | nil => simp [memWrite, Memory.wf]
  | cons e m ih =>
    obtain ⟨k, w⟩ := e
    obtain ⟨hk, hm⟩ := List.pairwise_cons.1 h
    simp only [memWrite]
    split
    · refine List.pairwise_cons.2 ⟨fun f hf => ?_, h⟩
      rcases List.mem_cons.1 hf with rfl | hf
      · assumption
      · exact lt_trans ‹a < k› (hk f hf)
    · split
      · subst_vars
        exact List.pairwise_cons.2 ⟨hk, hm⟩
      · refine List.pairwise_cons.2 ⟨fun f hf => ?_, ih hm⟩
        rcases mem_of_mem_memWrite hf with rfl | hf
        · simp only
          omega
        · exact hk f hf

/-- Placing cells keeps the canonical form. -/
theorem placeCells_wf {m : Memory} (h : Memory.wf m) (size a : Nat) (cells : List Word) :
    Memory.wf (placeCells size a cells m) := by
  induction cells generalizing a m with
  | nil => exact h
  | cons c rest ih =>
    simp only [placeCells]
    split
    · exact ih (memWrite_wf h a c) (a + 1)
    · exact ih h (a + 1)

end Sys2Proof.Machine
end

