-- ==== Sys2Proof/Laws/State.lean ====
section
/-!
SUPPORT. One lemma per field and per update of the state.
-/

namespace Sys2Proof.Machine

@[simp] theorem raiseBreak_cfg (c : BreakCause) (s : State) : (raiseBreak c s).cfg = s.cfg := rfl
@[simp] theorem raiseBreak_prog (c : BreakCause) (s : State) : (raiseBreak c s).prog = s.prog := rfl
@[simp] theorem raiseBreak_pc (c : BreakCause) (s : State) : (raiseBreak c s).pc = s.pc := rfl
@[simp] theorem raiseBreak_sp (c : BreakCause) (s : State) : (raiseBreak c s).sp = s.sp := rfl
@[simp] theorem raiseBreak_stack (c : BreakCause) (s : State) : (raiseBreak c s).stack = s.stack := rfl
@[simp] theorem raiseBreak_runState (c : BreakCause) (s : State) : (raiseBreak c s).runState = .brk := rfl
@[simp] theorem raiseBreak_steps (c : BreakCause) (s : State) : (raiseBreak c s).steps = s.steps := rfl
@[simp] theorem raiseBreak_cause (c : BreakCause) (s : State) : (raiseBreak c s).cause = c := rfl
@[simp] theorem raiseBreak_stepBudget (c : BreakCause) (s : State) : (raiseBreak c s).stepBudget = s.stepBudget := rfl
@[simp] theorem raiseBreak_dispatchStrategy (c : BreakCause) (s : State) : (raiseBreak c s).dispatchStrategy = s.dispatchStrategy := rfl
@[simp] theorem raiseBreak_started (c : BreakCause) (s : State) : (raiseBreak c s).started = s.started := rfl
@[simp] theorem raiseBreak_out (c : BreakCause) (s : State) : (raiseBreak c s).out = s.out := rfl
@[simp] theorem raiseBreak_randData (c : BreakCause) (s : State) : (raiseBreak c s).randData = s.randData := rfl
@[simp] theorem raiseBreak_draws (c : BreakCause) (s : State) : (raiseBreak c s).draws = s.draws := rfl
@[simp] theorem raiseBreak_powerOn (c : BreakCause) (s : State) : (raiseBreak c s).powerOn = s.powerOn := rfl

@[simp] theorem emit_cfg (v : Word) (s : State) : (emit v s).cfg = s.cfg := rfl
@[simp] theorem emit_prog (v : Word) (s : State) : (emit v s).prog = s.prog := rfl
@[simp] theorem emit_pc (v : Word) (s : State) : (emit v s).pc = s.pc := rfl
@[simp] theorem emit_sp (v : Word) (s : State) : (emit v s).sp = s.sp := rfl
@[simp] theorem emit_stack (v : Word) (s : State) : (emit v s).stack = s.stack := rfl
@[simp] theorem emit_runState (v : Word) (s : State) : (emit v s).runState = s.runState := rfl
@[simp] theorem emit_steps (v : Word) (s : State) : (emit v s).steps = s.steps := rfl
@[simp] theorem emit_cause (v : Word) (s : State) : (emit v s).cause = s.cause := rfl
@[simp] theorem emit_stepBudget (v : Word) (s : State) : (emit v s).stepBudget = s.stepBudget := rfl
@[simp] theorem emit_dispatchStrategy (v : Word) (s : State) : (emit v s).dispatchStrategy = s.dispatchStrategy := rfl
@[simp] theorem emit_started (v : Word) (s : State) : (emit v s).started = s.started := rfl
@[simp] theorem emit_out (v : Word) (s : State) : (emit v s).out = s.out ++ [v] := rfl
@[simp] theorem emit_randData (v : Word) (s : State) : (emit v s).randData = s.randData := rfl
@[simp] theorem emit_draws (v : Word) (s : State) : (emit v s).draws = s.draws := rfl
@[simp] theorem emit_powerOn (v : Word) (s : State) : (emit v s).powerOn = s.powerOn := rfl

@[simp] theorem jumpBy_cfg (imm : Int) (s : State) : (jumpBy imm s).cfg = s.cfg := rfl
@[simp] theorem jumpBy_prog (imm : Int) (s : State) : (jumpBy imm s).prog = s.prog := rfl
@[simp] theorem jumpBy_pc (imm : Int) (s : State) : (jumpBy imm s).pc = s.pc + u32 imm := rfl
@[simp] theorem jumpBy_sp (imm : Int) (s : State) : (jumpBy imm s).sp = s.sp := rfl
@[simp] theorem jumpBy_stack (imm : Int) (s : State) : (jumpBy imm s).stack = s.stack := rfl
@[simp] theorem jumpBy_runState (imm : Int) (s : State) : (jumpBy imm s).runState = s.runState := rfl
@[simp] theorem jumpBy_steps (imm : Int) (s : State) : (jumpBy imm s).steps = s.steps := rfl
@[simp] theorem jumpBy_cause (imm : Int) (s : State) : (jumpBy imm s).cause = s.cause := rfl
@[simp] theorem jumpBy_stepBudget (imm : Int) (s : State) : (jumpBy imm s).stepBudget = s.stepBudget := rfl
@[simp] theorem jumpBy_dispatchStrategy (imm : Int) (s : State) : (jumpBy imm s).dispatchStrategy = s.dispatchStrategy := rfl
@[simp] theorem jumpBy_started (imm : Int) (s : State) : (jumpBy imm s).started = s.started := rfl
@[simp] theorem jumpBy_out (imm : Int) (s : State) : (jumpBy imm s).out = s.out := rfl
@[simp] theorem jumpBy_randData (imm : Int) (s : State) : (jumpBy imm s).randData = s.randData := rfl
@[simp] theorem jumpBy_draws (imm : Int) (s : State) : (jumpBy imm s).draws = s.draws := rfl
@[simp] theorem jumpBy_powerOn (imm : Int) (s : State) : (jumpBy imm s).powerOn = s.powerOn := rfl

@[simp] theorem endStep_cfg (len : Nat) (s : State) : (endStep len s).cfg = s.cfg := rfl
@[simp] theorem endStep_prog (len : Nat) (s : State) : (endStep len s).prog = s.prog := rfl
@[simp] theorem endStep_pc (len : Nat) (s : State) : (endStep len s).pc = s.pc + BitVec.ofNat 32 len := rfl
@[simp] theorem endStep_sp (len : Nat) (s : State) : (endStep len s).sp = s.sp := rfl
@[simp] theorem endStep_stack (len : Nat) (s : State) : (endStep len s).stack = s.stack := rfl
@[simp] theorem endStep_runState (len : Nat) (s : State) : (endStep len s).runState = s.runState := rfl
@[simp] theorem endStep_steps (len : Nat) (s : State) : (endStep len s).steps = s.steps + 1 := rfl
@[simp] theorem endStep_cause (len : Nat) (s : State) : (endStep len s).cause = s.cause := rfl
@[simp] theorem endStep_stepBudget (len : Nat) (s : State) : (endStep len s).stepBudget = s.stepBudget := rfl
@[simp] theorem endStep_dispatchStrategy (len : Nat) (s : State) : (endStep len s).dispatchStrategy = s.dispatchStrategy := rfl
@[simp] theorem endStep_started (len : Nat) (s : State) : (endStep len s).started = s.started := rfl
@[simp] theorem endStep_out (len : Nat) (s : State) : (endStep len s).out = s.out := rfl
@[simp] theorem endStep_randData (len : Nat) (s : State) : (endStep len s).randData = s.randData := rfl
@[simp] theorem endStep_draws (len : Nat) (s : State) : (endStep len s).draws = s.draws := rfl
@[simp] theorem endStep_powerOn (len : Nat) (s : State) : (endStep len s).powerOn = s.powerOn := rfl

@[simp] theorem drawShift_fst (s : State) : (drawShift s).1 = Config.shiftLarge s.draws := rfl
@[simp] theorem drawShift_cfg (s : State) : (drawShift s).2.cfg = s.cfg := rfl
@[simp] theorem drawShift_prog (s : State) : (drawShift s).2.prog = s.prog := rfl
@[simp] theorem drawShift_pc (s : State) : (drawShift s).2.pc = s.pc := rfl
@[simp] theorem drawShift_sp (s : State) : (drawShift s).2.sp = s.sp := rfl
@[simp] theorem drawShift_stack (s : State) : (drawShift s).2.stack = s.stack := rfl
@[simp] theorem drawShift_runState (s : State) : (drawShift s).2.runState = s.runState := rfl
@[simp] theorem drawShift_steps (s : State) : (drawShift s).2.steps = s.steps := rfl
@[simp] theorem drawShift_cause (s : State) : (drawShift s).2.cause = s.cause := rfl
@[simp] theorem drawShift_stepBudget (s : State) : (drawShift s).2.stepBudget = s.stepBudget := rfl
@[simp] theorem drawShift_dispatchStrategy (s : State) : (drawShift s).2.dispatchStrategy = s.dispatchStrategy := rfl
@[simp] theorem drawShift_started (s : State) : (drawShift s).2.started = s.started := rfl
@[simp] theorem drawShift_out (s : State) : (drawShift s).2.out = s.out := rfl
@[simp] theorem drawShift_randData (s : State) : (drawShift s).2.randData = s.randData := rfl
@[simp] theorem drawShift_draws (s : State) : (drawShift s).2.draws = s.draws + 1 := rfl
@[simp] theorem drawShift_powerOn (s : State) : (drawShift s).2.powerOn = s.powerOn := rfl

@[simp] theorem runStart_cfg (b : Count) (d : Strategy) (s : State) : (runStart b d s).cfg = s.cfg := rfl
@[simp] theorem runStart_prog (b : Count) (d : Strategy) (s : State) : (runStart b d s).prog = s.prog := rfl
@[simp] theorem runStart_pc (b : Count) (d : Strategy) (s : State) : (runStart b d s).pc = 0 := rfl
@[simp] theorem runStart_sp (b : Count) (d : Strategy) (s : State) : (runStart b d s).sp = -1 := rfl
@[simp] theorem runStart_stack (b : Count) (d : Strategy) (s : State) : (runStart b d s).stack = [] := rfl
@[simp] theorem runStart_runState (b : Count) (d : Strategy) (s : State) : (runStart b d s).runState = .running := rfl
@[simp] theorem runStart_steps (b : Count) (d : Strategy) (s : State) : (runStart b d s).steps = 0 := rfl
@[simp] theorem runStart_cause (b : Count) (d : Strategy) (s : State) : (runStart b d s).cause = .noCause := rfl
@[simp] theorem runStart_stepBudget (b : Count) (d : Strategy) (s : State) : (runStart b d s).stepBudget = b := rfl
@[simp] theorem runStart_dispatchStrategy (b : Count) (d : Strategy) (s : State) : (runStart b d s).dispatchStrategy = d := rfl
@[simp] theorem runStart_started (b : Count) (d : Strategy) (s : State) : (runStart b d s).started = true := rfl
@[simp] theorem runStart_out (b : Count) (d : Strategy) (s : State) : (runStart b d s).out = [] := rfl
@[simp] theorem runStart_randData (b : Count) (d : Strategy) (s : State) : (runStart b d s).randData = s.randData := rfl
@[simp] theorem runStart_draws (b : Count) (d : Strategy) (s : State) : (runStart b d s).draws = s.draws := rfl
@[simp] theorem runStart_powerOn (b : Count) (d : Strategy) (s : State) : (runStart b d s).powerOn = s.powerOn := rfl

@[simp] theorem drawRand_cfg (s : State) : (drawRand s).2.cfg = s.cfg := by
  unfold drawRand; split <;> rfl
@[simp] theorem drawRand_prog (s : State) : (drawRand s).2.prog = s.prog := by
  unfold drawRand; split <;> rfl
@[simp] theorem drawRand_pc (s : State) : (drawRand s).2.pc = s.pc := by
  unfold drawRand; split <;> rfl
@[simp] theorem drawRand_sp (s : State) : (drawRand s).2.sp = s.sp := by
  unfold drawRand; split <;> rfl
@[simp] theorem drawRand_stack (s : State) : (drawRand s).2.stack = s.stack := by
  unfold drawRand; split <;> rfl
@[simp] theorem drawRand_runState (s : State) : (drawRand s).2.runState = s.runState := by
  unfold drawRand; split <;> rfl
@[simp] theorem drawRand_steps (s : State) : (drawRand s).2.steps = s.steps := by
  unfold drawRand; split <;> rfl
@[simp] theorem drawRand_cause (s : State) : (drawRand s).2.cause = s.cause := by
  unfold drawRand; split <;> rfl
@[simp] theorem drawRand_stepBudget (s : State) : (drawRand s).2.stepBudget = s.stepBudget := by
  unfold drawRand; split <;> rfl
@[simp] theorem drawRand_dispatchStrategy (s : State) : (drawRand s).2.dispatchStrategy = s.dispatchStrategy := by
  unfold drawRand; split <;> rfl
@[simp] theorem drawRand_started (s : State) : (drawRand s).2.started = s.started := by
  unfold drawRand; split <;> rfl
@[simp] theorem drawRand_out (s : State) : (drawRand s).2.out = s.out := by
  unfold drawRand; split <;> rfl
@[simp] theorem drawRand_powerOn (s : State) : (drawRand s).2.powerOn = s.powerOn := by
  unfold drawRand; split <;> rfl

/-- A supplied value is taken from the port and no free value is used. -/
theorem drawRand_supplied {s : State} {r : Word} {rest : List Word} (h : s.randData = r :: rest) :
    drawRand s = (r, { s with randData := rest }) := by
  simp [drawRand, h]

/-- With no supplied value the draw is the next free value. -/
theorem drawRand_free {s : State} (h : s.randData = []) :
    drawRand s = (Config.randDraw s.draws, { s with draws := s.draws + 1 }) := by
  simp [drawRand, h]

/-- Both spaces are in canonical form at reset. -/
theorem reset_memory_wf : Memory.wf State.reset.prog ∧ Memory.wf State.reset.stack :=
  ⟨List.Pairwise.nil, List.Pairwise.nil⟩

end Sys2Proof.Machine
end

