-- ==== Sys2Proof/Laws/Ops.lean ====
section
/-!
SUPPORT. What each shared operation can do, once. A handler's proof cites these and never unfolds a primitive:
`OnlyStack s t xs` says that t is s but for its stack, whose live entries are xs.
-/

namespace Sys2Proof.Machine

/-! ## Sequencing -/

@[simp] theorem andThen_next {α β : Type} (a : α) (f : α → Result β) : andThen (.next a) f = f a := rfl

@[simp] theorem finish_next (len : Nat) (s : State) : finish len (.next s) = .next (endStep len s) := rfl

/-- What a sequence that answers came through. -/
theorem andThen_eq_next {α β : Type} {r : Result α} {f : α → Result β} {b : β} (h : andThen r f = .next b) :
    ∃ a, r = .next a ∧ f a = .next b := by
  cases r with
  | next a => exact ⟨a, rfl, h⟩
  | fault e => cases h
  | refused e => cases h

/-- What a handler that answers left before its end of step. -/
theorem finish_eq_next {len : Nat} {r : Result State} {t : State} (h : finish len r = .next t) :
    ∃ u, r = .next u ∧ t = endStep len u := by
  obtain ⟨u, hu, h⟩ := andThen_eq_next h
  cases h
  exact ⟨u, hu, rfl⟩

/-- While `Running` nothing is abandoned. -/
theorem unlessAbandoned_running {s : State} (h : s.runState = .running) (k : State → Result State) :
    unlessAbandoned s k = k s := if_pos h

/-- After a failure the rest is abandoned. -/
theorem unlessAbandoned_stopped {s : State} (h : s.runState ≠ .running) (k : State → Result State) :
    unlessAbandoned s k = .next s := if_neg h

/-! ## The stack pointer -/

theorem s32_add_one {w : Word} (h : s32 w < 2 ^ 31 - 1) : s32 (w + 1) = s32 w + 1 := by
  unfold s32 at *
  have hl := BitVec.le_toInt w
  rw [BitVec.toInt_add]
  simp only [BitVec.reduceToInt]
  rw [Int.bmod_eq_of_le] <;> norm_num at * <;> omega

theorem s32_sub_one {w : Word} (h : -2 ^ 31 < s32 w) : s32 (w - 1) = s32 w - 1 := by
  unfold s32 at *
  have hl := BitVec.toInt_lt (x := w)
  rw [BitVec.toInt_sub]
  simp only [BitVec.reduceToInt]
  rw [Int.bmod_eq_of_le] <;> norm_num at * <;> omega

@[simp] theorem s32_neg_one : s32 (-1) = -1 := by decide

/-! ## The live stack -/

@[simp] theorem length_liveStack (s : State) : (liveStack s).length = (s32 s.sp + 1).toNat := by
  simp [liveStack]

/-- The live stack depends on sp and the entries only. -/
theorem liveStack_congr {s t : State} (hsp : t.sp = s.sp)
    (h : ∀ k < (s32 s.sp + 1).toNat, stackEntry t k = stackEntry s k) : liveStack t = liveStack s := by
  unfold liveStack
  rw [hsp]
  exact List.map_congr_left fun k hk => h k (List.mem_range.1 hk)

/-- Entry k of the live stack. -/
theorem liveStack_getElem? (s : State) (k : Nat) :
    (liveStack s)[k]? = if k < (s32 s.sp + 1).toNat then some (stackEntry s k) else none := by
  unfold liveStack
  split <;> simp_all

/-- The live stack without its top, and the top. -/
theorem liveStack_eq_snoc {s t : State} (h : 0 ≤ s32 s.sp) (hsp : s32 t.sp = s32 s.sp - 1)
    (hst : ∀ k, stackEntry t k = stackEntry s k) :
    liveStack s = liveStack t ++ [stackEntry s (s32 s.sp).toNat] := by
  have h1 : (s32 s.sp + 1).toNat = (s32 s.sp).toNat + 1 := by omega
  have h2 : (s32 t.sp + 1).toNat = (s32 s.sp).toNat := by omega
  unfold liveStack
  rw [h1, h2, List.range_succ, List.map_append]
  simp [hst]

/-- The stack is empty exactly when sp is -1. -/
theorem liveStack_eq_nil {s : State} (h : SpInRange s) : liveStack s = [] ↔ s32 s.sp < 0 := by
  rw [← List.length_eq_zero_iff, length_liveStack]
  have := h.1
  omega

/-- t is s but for sp and the stack array, sp is in range, and the live entries are xs. -/
def OnlyStack (s t : State) (xs : List Word) : Prop :=
  t = { s with sp := t.sp, stack := t.stack } ∧ SpInRange t ∧ liveStack t = xs

theorem OnlyStack.refl {s : State} (h : SpInRange s) : OnlyStack s s (liveStack s) := ⟨rfl, h, rfl⟩

theorem OnlyStack.of_live {s : State} {xs : List Word} (h : SpInRange s) (hl : liveStack s = xs) :
    OnlyStack s s xs := ⟨rfl, h, hl⟩

theorem OnlyStack.runState {s t : State} {xs : List Word} (h : OnlyStack s t xs) : t.runState = s.runState := by
  rw [h.1]

theorem OnlyStack.stackCapacity {s t : State} {xs : List Word} (h : OnlyStack s t xs) :
    t.cfg.stackCapacity = s.cfg.stackCapacity := by
  rw [h.1]

/-- At most STACK_CAPACITY - 1 entries are live (R25). -/
theorem OnlyStack.length_le {s t : State} {xs : List Word} (h : OnlyStack s t xs) :
    xs.length + 1 ≤ s.cfg.stackCapacity := by
  have h1 := h.2.1
  rw [← h.2.2, length_liveStack, ← h.stackCapacity]
  have := h1.1
  have := h1.2.1
  omega

/-! ## The primitives -/

/-- `Pop` on an empty stack (R88). -/
theorem pop_empty {s t : State} (h : OnlyStack s t []) : pop t = .next (0, raiseBreak .stackUnderflow t) :=
  if_pos ((liveStack_eq_nil h.2.1).1 h.2.2)

/-- `Pop` of the top entry x (R88). -/
theorem pop_top {s t : State} {xs : List Word} {x : Word} (h : OnlyStack s t (xs ++ [x])) :
    ∃ u, pop t = .next (x, u) ∧ OnlyStack s u xs := by
  obtain ⟨he, ⟨h1, h2, h3⟩, hl⟩ := h
  have hlen := congrArg List.length hl
  simp only [length_liveStack, List.length_append, List.length_singleton] at hlen
  have hpos : 0 ≤ s32 t.sp := by omega
  have hsp : s32 (t.sp - 1) = s32 t.sp - 1 := s32_sub_one (by norm_num; omega)
  have hsn := liveStack_eq_snoc (t := { t with sp := t.sp - 1 }) hpos hsp fun _ => rfl
  rw [hl] at hsn
  obtain ⟨hxs, hx⟩ := List.append_inj' hsn rfl
  refine ⟨{ t with sp := t.sp - 1 }, ?_, ?_, ?_, hxs.symm⟩
  · have hr : stackRead t (s32 t.sp) = .next x := by
      rw [stackRead, if_pos ⟨hpos, by omega⟩, List.singleton_inj.1 hx]
    simp [pop, hr, not_lt.2 hpos]
  · rw [he]
  · exact ⟨by simp only [hsp]; omega, by simp only [hsp]; omega, h3⟩

/-- `Push` onto a full stack (R87). -/
theorem push_full {s t : State} {xs : List Word} (v : Word) (h : OnlyStack s t xs)
    (hf : xs.length + 1 = s.cfg.stackCapacity) : push v t = .next (raiseBreak .stackOverflow t) := by
  have h1 := h.2.1.1
  rw [← h.2.2, length_liveStack, ← h.stackCapacity] at hf
  exact if_pos (by omega)

/-- `Push` onto a stack that has room (R87). -/
theorem push_room {s t : State} {xs : List Word} (v : Word) (h : OnlyStack s t xs)
    (hr : xs.length + 1 < s.cfg.stackCapacity) : ∃ u, push v t = .next u ∧ OnlyStack s u (xs ++ [v]) := by
  rw [← h.stackCapacity] at hr
  obtain ⟨he, ⟨h1, h2, h3⟩, rfl⟩ := h
  rw [length_liveStack] at hr
  have hsp : s32 (t.sp + 1) = s32 t.sp + 1 := s32_add_one (by norm_num at *; omega)
  let u : State := { t with sp := t.sp + 1, stack := memWrite t.stack (s32 t.sp + 1).toNat v }
  have hk : ∀ k, stackEntry u k = if k = (s32 t.sp + 1).toNat then v else stackEntry t k := by
    intro k
    simp only [stackEntry, u, memRead_memWrite]
    split <;> rfl
  refine ⟨u, ?_, ?_, ?_, ?_⟩
  · rw [push, if_neg (by omega), stackWrite, if_pos ⟨by omega, by simp only; omega⟩]
  · simp only [u]; rw [he]
  · exact ⟨by simp only [u, hsp]; omega, by simp only [u, hsp]; omega, h3⟩
  · have hsn := liveStack_eq_snoc (s := u) (t := { u with sp := t.sp }) (by simp only [u, hsp]; omega)
      (by simp only [u, hsp]; omega) fun _ => rfl
    rw [hsn, hk]
    simp only [u, hsp, if_pos]
    congr 1
    refine liveStack_congr rfl fun k hlt => ?_
    have : k ≠ (s32 t.sp + 1).toNat := by
      have : k < (s32 t.sp + 1).toNat := hlt
      omega
    exact (hk k).trans (if_neg this)

/-- `PickAt` beyond the bottom (R89). -/
theorem pickAt_deep {s t : State} {xs : List Word} {n : Word} (h : OnlyStack s t xs)
    (hn : xs.length ≤ n.toNat) : pickAt n t = .next (0, raiseBreak .invalidPickDepth t) := by
  have h1 := h.2.1.1
  rw [← h.2.2, length_liveStack] at hn
  exact if_pos (by omega)

/-- `PickAt` of a live entry (R89). -/
theorem pickAt_live {s t : State} {xs ys : List Word} {v n : Word} (h : OnlyStack s t (xs ++ [v] ++ ys))
    (hn : n.toNat = ys.length) : pickAt n t = .next (v, t) := by
  obtain ⟨-, ⟨h1, h2, h3⟩, hl⟩ := h
  have hlen := congrArg List.length hl
  simp only [length_liveStack, List.length_append, List.length_singleton] at hlen
  have hi : (s32 t.sp - n.toNat).toNat = xs.length := by omega
  have hv : stackEntry t (s32 t.sp - n.toNat).toNat = v := by
    have := liveStack_getElem? t xs.length
    rw [hl, if_pos (by omega)] at this
    rw [hi]
    simpa using this.symm
  have hr : stackRead t (s32 t.sp - n.toNat) = .next v := by
    rw [stackRead, if_pos ⟨by omega, by omega⟩, hv]
  rw [pickAt, if_neg (by omega), hr, andThen_next]

/-! ## The checked primitives of the handlers -/

theorem popThen_empty {s t : State} (h : OnlyStack s t []) (k : Word → State → Result State) :
    popThen t k = .next (raiseBreak .stackUnderflow t) := by
  rw [popThen, pop_empty h, andThen_next]
  exact unlessAbandoned_stopped (by simp) _

theorem popThen_top {s t : State} {xs : List Word} {x : Word} (h : OnlyStack s t (xs ++ [x]))
    (hr : s.runState = .running) (k : Word → State → Result State) :
    ∃ u, popThen t k = k x u ∧ OnlyStack s u xs := by
  obtain ⟨u, hp, hu⟩ := pop_top h
  refine ⟨u, ?_, hu⟩
  rw [popThen, hp, andThen_next]
  exact unlessAbandoned_running (hu.runState.trans hr) _

theorem popTwo_short {s t : State} {xs : List Word} (h : OnlyStack s t xs) (hr : s.runState = .running)
    (hl : xs.length < 2) (k : Word → Word → State → Result State) :
    ∃ u, popTwo t k = .next (raiseBreak .stackUnderflow u) ∧ OnlyStack s u [] := by
  match xs, hl with
  | [], _ => exact ⟨t, popThen_empty h _, h⟩
  | [x], _ =>
    obtain ⟨u, hp, hu⟩ := popThen_top (xs := []) h hr fun a s1 => popThen s1 fun b s2 => k a b s2
    exact ⟨u, by rw [popTwo, hp, popThen_empty hu], hu⟩

theorem popTwo_top {s t : State} {xs : List Word} {x y : Word} (h : OnlyStack s t (xs ++ [x, y]))
    (hr : s.runState = .running) (k : Word → Word → State → Result State) :
    ∃ u, popTwo t k = k y x u ∧ OnlyStack s u xs := by
  obtain ⟨u, hp, hu⟩ := popThen_top (xs := xs ++ [x]) (x := y) (by simpa using h) hr
    fun a s1 => popThen s1 fun b s2 => k a b s2
  obtain ⟨w, hq, hw⟩ := popThen_top hu hr fun b s2 => k y b s2
  exact ⟨w, by rw [popTwo, hp, hq], hw⟩

theorem pushThen_full {s t : State} {xs : List Word} (v : Word) (h : OnlyStack s t xs)
    (hf : xs.length + 1 = s.cfg.stackCapacity) (k : State → Result State) :
    pushThen v t k = .next (raiseBreak .stackOverflow t) := by
  rw [pushThen, push_full v h hf, andThen_next]
  exact unlessAbandoned_stopped (by simp) _

theorem pushThen_room {s t : State} {xs : List Word} (v : Word) (h : OnlyStack s t xs)
    (hr : s.runState = .running) (hf : xs.length + 1 < s.cfg.stackCapacity) (k : State → Result State) :
    ∃ u, pushThen v t k = k u ∧ OnlyStack s u (xs ++ [v]) := by
  obtain ⟨u, hp, hu⟩ := push_room v h hf
  refine ⟨u, ?_, hu⟩
  rw [pushThen, hp, andThen_next]
  exact unlessAbandoned_running (hu.runState.trans hr) _

theorem pickThen_deep {s t : State} {xs : List Word} {n : Word} (h : OnlyStack s t xs)
    (hn : xs.length ≤ n.toNat) (k : Word → State → Result State) :
    pickThen n t k = .next (raiseBreak .invalidPickDepth t) := by
  rw [pickThen, pickAt_deep h hn, andThen_next]
  exact unlessAbandoned_stopped (by simp) _

theorem pickThen_live {s t : State} {xs ys : List Word} {v n : Word} (h : OnlyStack s t (xs ++ [v] ++ ys))
    (hr : s.runState = .running) (hn : n.toNat = ys.length) (k : Word → State → Result State) :
    pickThen n t k = k v t := by
  rw [pickThen, pickAt_live h hn, andThen_next]
  exact unlessAbandoned_running (h.runState.trans hr) _

/-! ## From a handler's result to what the instruction leaves -/

/-- The live stack does not see the end of a step or a break. -/
@[simp] theorem liveStack_endStep (len : Nat) (s : State) : liveStack (endStep len s) = liveStack s := rfl

@[simp] theorem liveStack_raiseBreak (c : BreakCause) (s : State) : liveStack (raiseBreak c s) = liveStack s := rfl

theorem OnlyStack.leaves {s t : State} {xs : List Word} (h : OnlyStack s t xs) (len : Nat) :
    Leaves s (endStep len t) (s.pc + BitVec.ofNat 32 len) xs s.runState s.cause ∧
      SameDevices s (endStep len t) := by
  obtain ⟨he, -, rfl⟩ := h
  rw [he]
  exact ⟨⟨rfl, rfl, rfl, rfl, rfl, rfl, rfl, rfl, rfl, rfl, rfl⟩, rfl, rfl, rfl⟩

theorem OnlyStack.leaves_broken {s t : State} {xs : List Word} (h : OnlyStack s t xs) (c : BreakCause) (len : Nat) :
    Leaves s (endStep len (raiseBreak c t)) (s.pc + BitVec.ofNat 32 len) xs .brk c ∧
      SameDevices s (endStep len (raiseBreak c t)) := by
  obtain ⟨he, -, rfl⟩ := h
  rw [he]
  exact ⟨⟨rfl, rfl, rfl, rfl, rfl, rfl, rfl, rfl, rfl, rfl, rfl⟩, rfl, rfl, rfl⟩

end Sys2Proof.Machine
end

