-- ==== Sys2Proof/Laws/Frame.lean ====
section
/-!
SUPPORT. What the primitives can have done when they answer, in any state, and what every chain of them keeps.
-/

namespace Sys2Proof.Machine

/-! ## Inversion of the primitives -/

theorem pop_eq_next {s u : State} {v : Word} (h : pop s = .next (v, u)) :
    (s32 s.sp < 0 ∧ v = 0 ∧ u = raiseBreak .stackUnderflow s) ∨
    (0 ≤ s32 s.sp ∧ v = stackEntry s (s32 s.sp).toNat ∧ u = { s with sp := s.sp - 1 }) := by
  unfold pop at h
  split at h
  · cases h
    exact .inl ⟨‹_›, rfl, rfl⟩
  · obtain ⟨w, hw, h⟩ := andThen_eq_next h
    unfold stackRead at hw
    split at hw
    · cases hw
      cases h
      exact .inr ⟨by omega, rfl, rfl⟩
    · cases hw

theorem push_eq_next {s u : State} {v : Word} (h : push v s = .next u) :
    ((s.cfg.stackCapacity : Int) - 1 ≤ s32 s.sp + 1 ∧ u = raiseBreak .stackOverflow s) ∨
    (0 ≤ s32 s.sp + 1 ∧ s32 s.sp + 1 < (s.cfg.stackCapacity : Int) - 1 ∧
      u = { s with sp := s.sp + 1, stack := memWrite s.stack (s32 s.sp + 1).toNat v }) := by
  unfold push at h
  split at h
  · cases h
    exact .inl ⟨‹_›, rfl⟩
  · unfold stackWrite at h
    split at h
    · rename_i hi
      cases h
      exact .inr ⟨hi.1, by omega, rfl⟩
    · cases h

theorem pickAt_eq_next {s u : State} {n v : Word} (h : pickAt n s = .next (v, u)) :
    (s32 s.sp < n.toNat ∧ u = raiseBreak .invalidPickDepth s) ∨ ((n.toNat : Int) ≤ s32 s.sp ∧ u = s) := by
  unfold pickAt at h
  split at h
  · cases h
    exact .inl ⟨by omega, rfl⟩
  · obtain ⟨w, hw, h⟩ := andThen_eq_next h
    cases h
    exact .inr ⟨by omega, rfl⟩

/-- A checked `Pop` answers through its continuation, or by abandoning. -/
theorem popThen_eq_next {s t : State} {k : Word → State → Result State} (h : popThen s k = .next t) :
    ∃ v u, pop s = .next (v, u) ∧ (u.runState = .running ∧ k v u = .next t ∨ u.runState ≠ .running ∧ t = u) := by
  obtain ⟨⟨v, u⟩, hp, h⟩ := andThen_eq_next h
  refine ⟨v, u, hp, ?_⟩
  unfold unlessAbandoned at h
  split at h
  · exact .inl ⟨‹_›, h⟩
  · exact .inr ⟨‹_›, by cases h; rfl⟩

theorem pushThen_eq_next {s t : State} {v : Word} {k : State → Result State} (h : pushThen v s k = .next t) :
    ∃ u, push v s = .next u ∧ (u.runState = .running ∧ k u = .next t ∨ u.runState ≠ .running ∧ t = u) := by
  obtain ⟨u, hp, h⟩ := andThen_eq_next h
  refine ⟨u, hp, ?_⟩
  unfold unlessAbandoned at h
  split at h
  · exact .inl ⟨‹_›, h⟩
  · exact .inr ⟨‹_›, by cases h; rfl⟩

theorem pickThen_eq_next {s t : State} {n : Word} {k : Word → State → Result State}
    (h : pickThen n s k = .next t) :
    ∃ v u, pickAt n s = .next (v, u) ∧
      (u.runState = .running ∧ k v u = .next t ∨ u.runState ≠ .running ∧ t = u) := by
  obtain ⟨⟨v, u⟩, hp, h⟩ := andThen_eq_next h
  refine ⟨v, u, hp, ?_⟩
  unfold unlessAbandoned at h
  split at h
  · exact .inl ⟨‹_›, h⟩
  · exact .inr ⟨‹_›, by cases h; rfl⟩

/-! ## What a chain of primitives keeps -/

/-- t is s but for sp, the stack array, state and cause. -/
def StackMove (s t : State) : Prop :=
  t = { s with sp := t.sp, stack := t.stack, runState := t.runState, cause := t.cause }

theorem StackMove.refl (s : State) : StackMove s s := rfl

theorem StackMove.trans {s t u : State} (h : StackMove s t) (g : StackMove t u) : StackMove s u := by
  unfold StackMove at *
  rw [g, h]

theorem StackMove.raiseBreak (s : State) (c : BreakCause) : StackMove s (raiseBreak c s) := rfl

theorem StackMove.pop {s u : State} {v : Word} (h : pop s = .next (v, u)) : StackMove s u := by
  rcases pop_eq_next h with ⟨-, -, rfl⟩ | ⟨-, -, rfl⟩ <;> rfl

theorem StackMove.push {s u : State} {v : Word} (h : push v s = .next u) : StackMove s u := by
  rcases push_eq_next h with ⟨-, rfl⟩ | ⟨-, -, rfl⟩ <;> rfl

theorem StackMove.pickAt {s u : State} {n v : Word} (h : pickAt n s = .next (v, u)) : StackMove s u := by
  rcases pickAt_eq_next h with ⟨-, rfl⟩ | ⟨-, rfl⟩ <;> rfl

/-- A checked `Pop` keeps what its continuation keeps. -/
theorem StackMove.popThen {s t : State} {k : Word → State → Result State}
    (hk : ∀ v u, k v u = .next t → StackMove u t) (h : popThen s k = .next t) : StackMove s t := by
  obtain ⟨v, u, hp, ⟨-, h⟩ | ⟨-, rfl⟩⟩ := popThen_eq_next h
  · exact (StackMove.pop hp).trans (hk v u h)
  · exact StackMove.pop hp

theorem StackMove.popTwo {s t : State} {k : Word → Word → State → Result State}
    (hk : ∀ a b u, k a b u = .next t → StackMove u t) (h : popTwo s k = .next t) : StackMove s t :=
  StackMove.popThen (fun a _ => StackMove.popThen fun b u => hk a b u) h

theorem StackMove.pushThen {s t : State} {v : Word} {k : State → Result State}
    (hk : ∀ u, k u = .next t → StackMove u t) (h : pushThen v s k = .next t) : StackMove s t := by
  obtain ⟨u, hp, ⟨-, h⟩ | ⟨-, rfl⟩⟩ := pushThen_eq_next h
  · exact (StackMove.push hp).trans (hk u h)
  · exact StackMove.push hp

theorem StackMove.pickThen {s t : State} {n : Word} {k : Word → State → Result State}
    (hk : ∀ v u, k v u = .next t → StackMove u t) (h : pickThen n s k = .next t) : StackMove s t := by
  obtain ⟨v, u, hp, ⟨-, h⟩ | ⟨-, rfl⟩⟩ := pickThen_eq_next h
  · exact (StackMove.pickAt hp).trans (hk v u h)
  · exact StackMove.pickAt hp

end Sys2Proof.Machine
end

