-- ==== Sys2Proof/Laws/Fetch.lean ====
section
/-!
SUPPORT. What fetch and decode do, once: they always answer, and each case of R80.
-/

namespace Sys2Proof.Machine

/-- `FetchDecode` from the cells it read. -/
theorem fetchDecode_of_cells {s : State} {cells : List Word} (h : fetchCells s = .next cells) :
    fetchDecode s =
      .next (decode s.cfg.opcodeMap cells, afterDecode (decode s.cfg.opcodeMap cells) s) := by
  rw [fetchDecode, h, andThen_next]

/-- A pc at or above PROGRAM_SIZE reads nothing (R81). -/
theorem fetchCells_outOfRange {s : State} (h : s.cfg.programSize ≤ s.pc.toNat) : fetchCells s = .next [] :=
  if_pos h

/-- The opcode cell alone is read unless it needs an immediate that is inside the store (R82-R84). -/
theorem fetchCells_one {s : State} (h : s.pc.toNat < s.cfg.programSize)
    (hn : ¬ (needsImmediate s.cfg.opcodeMap (progCell s s.pc.toNat) ∧ s.pc.toNat + 1 < s.cfg.programSize)) :
    fetchCells s = .next [progCell s s.pc.toNat] := by
  rw [fetchCells, if_neg (not_le.2 h), progRead, if_pos h, andThen_next, if_neg hn]

/-- Both cells of a two-cell opcode that has its immediate inside the store (R83). -/
theorem fetchCells_two {s : State} (hn : needsImmediate s.cfg.opcodeMap (progCell s s.pc.toNat))
    (h : s.pc.toNat + 1 < s.cfg.programSize) :
    fetchCells s = .next [progCell s s.pc.toNat, progCell s (s.pc.toNat + 1)] := by
  have h1 : s.pc.toNat < s.cfg.programSize := by omega
  rw [fetchCells, if_neg (not_le.2 h1), progRead, if_pos h1, andThen_next, if_pos ⟨hn, h⟩, progRead, if_pos h,
    andThen_next]

/-- Fetch never stops the machine (R79). -/
theorem exists_fetchCells (s : State) : ∃ cells, fetchCells s = .next cells := by
  by_cases h : s.pc.toNat < s.cfg.programSize
  · by_cases hn : needsImmediate s.cfg.opcodeMap (progCell s s.pc.toNat) ∧ s.pc.toNat + 1 < s.cfg.programSize
    · exact ⟨_, fetchCells_two hn.1 hn.2⟩
    · exact ⟨_, fetchCells_one h hn⟩
  · exact ⟨_, fetchCells_outOfRange (not_lt.1 h)⟩

end Sys2Proof.Machine
end

