-- ==== Sys2Proof/Laws/Step.lean ====
section
/-!
SUPPORT. The step cycle, once: when a step may begin, and what a step is from what it decoded.
-/

namespace Sys2Proof.Machine

/-- When a step may begin (R95). -/
theorem stepAllowed_iff (s : State) :
    stepAllowed s = true ↔ s.started = true ∧ s.runState = .running ∧ s.steps < s.stepBudget := by
  simp [stepAllowed, and_assoc]

/-- Where no step may begin, nothing happens (R44). -/
theorem step_idle {s : State} (h : stepAllowed s = false) : step s = .next s := by
  simp [step, stepOrIdle, h]

/-- A step is the execution of what it decoded (R93). -/
theorem step_of_fetch {s t : State} {d : Decoded} (h : stepAllowed s = true)
    (hf : fetchDecode s = .next (d, t)) : step s = execDecoded d t := by
  simp [step, stepOrIdle, h, oneStep, hf]

/-- The `Break` handler from a `Running` state (R112). -/
theorem runBreak_running {s : State} (h : s.runState = .running) (c : BreakCause) :
    runBreak c s = .next (endStep 1 (raiseBreak c s)) := by
  simp [runBreak, h]

/-- The `Break` handler after decode has broken (R112). -/
theorem runBreak_broken {s : State} (h : s.runState ≠ .running) (c : BreakCause) :
    runBreak c s = .next (endStep 1 s) := by
  simp [runBreak, h]

/-- What a broken step without stack effects leaves. -/
theorem leaves_broken (s : State) (c : BreakCause) (len : Nat) :
    Leaves s (endStep len (raiseBreak c s)) (s.pc + BitVec.ofNat 32 len) (liveStack s) .brk c ∧
      SameDevices s (endStep len (raiseBreak c s)) :=
  ⟨⟨rfl, rfl, rfl, rfl, rfl, rfl, rfl, rfl, rfl, rfl, rfl⟩, rfl, rfl, rfl⟩

end Sys2Proof.Machine
end

