-- ==== Sys2Proof/Laws/Exec.lean ====
section
/-!
SUPPORT. What an instruction and a step can do, once, in any state: the field-by-field effect of a handler, the
moves a handler is made of (an induction principle for whatever every move keeps), and the cases of a step.
-/

namespace Sys2Proof.Machine

/-! ## The fields a handler reaches -/

/-- What the handler of `i` can have left in `u`, before its end of step, from `s`. -/
def HandlerEffect (i : Instr) (s u : State) : Prop :=
  match i with
  | .halt => u = { s with runState := .halted }
  | .print => StackMove { s with out := u.out } u ∧ (u.out = s.out ∨ ∃ v, u.out = s.out ++ [v])
  | .rand => StackMove { s with randData := u.randData, draws := u.draws } u
  | .shl | .shr => StackMove { s with draws := u.draws } u
  | .je _ | .jne _ | .jump _ => StackMove { s with pc := u.pc } u
  | _ => StackMove s u

theorem StackMove.draws {s u : State} (h : StackMove s u) : u.draws = s.draws := by rw [h]

/-- A checked `Pop`: the handler went on `Running` after a move of the stack, or ended there. -/
theorem popThen_move {s t : State} {k : Word → State → Result State} (h : popThen s k = .next t) :
    ∃ v u, StackMove s u ∧ (k v u = .next t ∨ t = u) := by
  obtain ⟨v, u, hp, ⟨-, h⟩ | ⟨-, h⟩⟩ := popThen_eq_next h
  · exact ⟨v, u, .pop hp, .inl h⟩
  · exact ⟨v, u, .pop hp, .inr h⟩

theorem shift_move {s t : State} {f : Word → Word → Word} (h : shift f s = .next t) :
    StackMove { s with draws := t.draws } t := by
  unfold shift popTwo at h
  obtain ⟨a, u, hu, h | rfl⟩ := popThen_move h
  · obtain ⟨b, w, hw, h | rfl⟩ := popThen_move h
    · have hs := hu.trans hw
      beta_reduce at h
      split at h
      · have ht := hs.trans (.push h)
        rw [ht.draws]
        exact ht
      · have ht := StackMove.push h
        rw [ht.draws]
        unfold StackMove at *
        rw [ht, hs]
        rfl
    · have ht := hu.trans hw
      rw [ht.draws]
      exact ht
  · rw [hu.draws]
    exact hu

theorem jump_move {s t : State} {imm : Int} {c : Word → Bool}
    (h : popThen s (fun a s1 => .next (if c a then jumpBy imm s1 else s1)) = .next t) :
    StackMove { s with pc := t.pc } t := by
  obtain ⟨a, u, hu, h | rfl⟩ := popThen_move h
  · cases h
    unfold StackMove at *
    split <;> rw [hu]
    rfl
  · unfold StackMove at *
    rw [hu]

theorem print_move {s t : State} (h : popThen s (fun a s1 => .next (emit a s1)) = .next t) :
    StackMove { s with out := t.out } t ∧ (t.out = s.out ∨ ∃ v, t.out = s.out ++ [v]) := by
  obtain ⟨v, w, hw, h | rfl⟩ := popThen_move h
  · cases h
    unfold StackMove at *
    exact ⟨by rw [hw]; rfl, .inr ⟨v, by rw [hw]; rfl⟩⟩
  · unfold StackMove at *
    exact ⟨by rw [hw], .inl (by rw [hw])⟩

theorem runBreak_eq_next {s t : State} {c : BreakCause} (h : runBreak c s = .next t) :
    t = endStep 1 (raiseBreak c s) ∨ t = endStep 1 s := by
  unfold runBreak at h
  cases h
  split
  · exact .inl rfl
  · exact .inr rfl

/-- Every instruction that answers did its handler's effect and its end of step. -/
theorem exec_effect {i : Instr} {s t : State} (h : exec i s = .next t) :
    ∃ u, HandlerEffect i s u ∧ t = endStep (instrLen i) u := by
  cases i
  case nop => cases h; exact ⟨s, rfl, rfl⟩
  case halt => cases h; exact ⟨_, rfl, rfl⟩
  case jump imm => cases h; exact ⟨jumpBy imm s, rfl, rfl⟩
  case brk | unrecognized =>
    rcases runBreak_eq_next h with rfl | rfl
    · exact ⟨_, .raiseBreak s _, rfl⟩
    · exact ⟨_, .refl s, rfl⟩
  all_goals
    obtain ⟨u, hu, rfl⟩ := finish_eq_next h
    refine ⟨u, ?_, rfl⟩
  case push => exact .push hu
  case print => exact print_move hu
  case swap => exact .popTwo (fun a b u => .pushThen fun u => .push) hu
  case dup => exact .popThen (fun a u => .pushThen fun u => .push) hu
  case ovr => exact .popTwo (fun a b u => .pushThen fun u => .pushThen fun u => .push) hu
  case rot =>
    exact .popTwo (fun a b u => .popThen fun a u => .pushThen fun u => .pushThen fun u => .push) hu
  case pick => exact .popThen (fun a u => .pickThen fun v u => .push) hu
  case drop => exact .popThen (fun a u h => by cases h; rfl) hu
  case inc | dec | sqrt => exact .popThen (fun a u => .push) hu
  case add | sub | mul | and | or | xor => exact .popTwo (fun a b u => .push) hu
  case mod =>
    refine .popTwo (fun a b u h => ?_) hu
    split at h
    · cases h; rfl
    · exact .push h
  case shl | shr => exact shift_move hu
  case je | jne => exact jump_move hu
  case rand =>
    have := StackMove.push hu
    unfold HandlerEffect StackMove drawRand at *
    split at this <;> rw [this]

/-! ## The moves a handler is made of -/

/-- One move of a handler. -/
inductive Move : State → State → Prop where
  | popped {s u v} : pop s = .next (v, u) → Move s u
  | pushed {s u v} : push v s = .next u → Move s u
  | raised (s c) : c ≠ .noCause → Move s (raiseBreak c s)
  | emitted (v s) : Move s (emit v s)
  | drewRand (s) : Move s (drawRand s).2
  | drewShift (s) : Move s (drawShift s).2
  | jumped (imm s) : Move s (jumpBy imm s)

/-- A handler's moves, one after the other. -/
abbrev Moves : State → State → Prop := Relation.ReflTransGen Move

theorem Moves.push {s t : State} {v : Word} (h : push v s = .next t) : Moves s t := .single (.pushed h)

theorem Moves.pickAt {s t : State} {n v : Word} (h : pickAt n s = .next (v, t)) : Moves s t := by
  rcases pickAt_eq_next h with ⟨-, rfl⟩ | ⟨-, rfl⟩
  · exact .single (.raised _ _ (by decide))
  · exact .refl

theorem Moves.popThen {s t : State} {k : Word → State → Result State}
    (hk : ∀ v u, k v u = .next t → Moves u t) (h : popThen s k = .next t) : Moves s t := by
  obtain ⟨v, u, hp, ⟨-, h⟩ | ⟨-, rfl⟩⟩ := popThen_eq_next h
  · exact .head (.popped hp) (hk v u h)
  · exact .single (.popped hp)

theorem Moves.popTwo {s t : State} {k : Word → Word → State → Result State}
    (hk : ∀ a b u, k a b u = .next t → Moves u t) (h : popTwo s k = .next t) : Moves s t :=
  Moves.popThen (fun a _ => Moves.popThen fun b u => hk a b u) h

theorem Moves.pushThen {s t : State} {v : Word} {k : State → Result State}
    (hk : ∀ u, k u = .next t → Moves u t) (h : pushThen v s k = .next t) : Moves s t := by
  obtain ⟨u, hp, ⟨-, h⟩ | ⟨-, rfl⟩⟩ := pushThen_eq_next h
  · exact .head (.pushed hp) (hk u h)
  · exact .single (.pushed hp)

theorem Moves.pickThen {s t : State} {n : Word} {k : Word → State → Result State}
    (hk : ∀ v u, k v u = .next t → Moves u t) (h : pickThen n s k = .next t) : Moves s t := by
  obtain ⟨v, u, hp, ⟨-, h⟩ | ⟨-, rfl⟩⟩ := pickThen_eq_next h
  · exact (Moves.pickAt hp).trans (hk v u h)
  · exact Moves.pickAt hp

/-- Every instruction that answers, `Halt` apart, is its moves and its end of step. -/
theorem exec_moves {i : Instr} {s t : State} (hi : i ≠ .halt) (h : exec i s = .next t) :
    ∃ u, Moves s u ∧ t = endStep (instrLen i) u := by
  cases i
  case halt => exact absurd rfl hi
  case nop => cases h; exact ⟨s, .refl, rfl⟩
  case jump imm => cases h; exact ⟨_, .single (.jumped imm s), rfl⟩
  case brk | unrecognized =>
    rcases runBreak_eq_next h with rfl | rfl
    · exact ⟨_, .single (.raised s _ (by decide)), rfl⟩
    · exact ⟨_, .refl, rfl⟩
  all_goals
    obtain ⟨u, hu, rfl⟩ := finish_eq_next h
    refine ⟨u, ?_, rfl⟩
  case push => exact .push hu
  case print => exact .popThen (fun a u h => by cases h; exact .single (.emitted a u)) hu
  case swap => exact .popTwo (fun a b u => .pushThen fun u => .push) hu
  case dup => exact .popThen (fun a u => .pushThen fun u => .push) hu
  case ovr => exact .popTwo (fun a b u => .pushThen fun u => .pushThen fun u => .push) hu
  case rot =>
    exact .popTwo (fun a b u => .popThen fun a u => .pushThen fun u => .pushThen fun u => .push) hu
  case pick => exact .popThen (fun a u => .pickThen fun v u => .push) hu
  case drop => exact .popThen (fun a u h => by cases h; exact .refl) hu
  case inc | dec | sqrt => exact .popThen (fun a u => .push) hu
  case add | sub | mul | and | or | xor => exact .popTwo (fun a b u => .push) hu
  case mod =>
    refine .popTwo (fun a b u h => ?_) hu
    split at h
    · cases h; exact .single (.raised u _ (by decide))
    · exact .push h
  case shl | shr =>
    refine .popTwo (fun a b u h => ?_) hu
    split at h
    · exact .push h
    · exact .head (.drewShift u) (Moves.push h)
  case je | jne =>
    refine .popThen (fun a u h => ?_) hu
    cases h
    split
    · exact .single (.jumped _ u)
    · exact .refl
  case rand => exact .head (.drewRand s) (Moves.push hu)

/-- What every move keeps, a handler keeps. -/
theorem Moves.keeps {P : State → Prop} (hP : ∀ s t, Move s t → P s → P t) {s t : State} (h : Moves s t)
    (hs : P s) : P t := by
  induction h with
  | refl => exact hs
  | tail _ hm ih => exact hP _ _ hm ih

/-! ## A step -/

/-- A step that answers found no step allowed, ran the instruction at pc, or ran one of the two `Break` decodings
that stand for no instruction. -/
theorem step_eq_next {s t : State} (h : step s = .next t) :
    (stepAllowed s = false ∧ t = s) ∨
    (stepAllowed s = true ∧ ∃ i, fetchDecode s = .next (.instr i, s) ∧ exec i s = .next t) ∨
    (stepAllowed s = true ∧ ∃ c, c ≠ .noCause ∧ t = endStep 1 (raiseBreak c s)) := by
  cases ha : stepAllowed s with
  | false =>
    rw [step_idle ha] at h
    cases h
    exact .inl ⟨rfl, rfl⟩
  | true =>
    right
    have hr := ((stepAllowed_iff s).1 ha).2.1
    obtain ⟨cells, hc⟩ := exists_fetchCells s
    have hf := fetchDecode_of_cells hc
    rw [step_of_fetch ha hf] at h
    generalize decode s.cfg.opcodeMap cells = d at h hf
    cases d with
    | instr i => exact .inl ⟨rfl, i, hf, h⟩
    | pcOutOfRange =>
      simp only [execDecoded, afterDecode] at h
      rw [runBreak_broken (by simp)] at h
      cases h
      exact .inr ⟨rfl, .pcOutOfRange, by decide, rfl⟩
    | truncated =>
      simp only [execDecoded, afterDecode, runBreak_running hr] at h
      cases h
      exact .inr ⟨rfl, .truncatedInstruction, by decide, rfl⟩

end Sys2Proof.Machine
end

