-- ==== Sys2Proof/Laws/Operands.lean ====
section
/-!
SUPPORT. What the operand forms and the shared shift do, once.
-/

namespace Sys2Proof.Machine

/-- A handler whose result only touches the stack completes its instruction. -/
theorem Completes.of_onlyStack {i : Instr} {s u : State} {len : Nat} {r : Result State} {xs : List Word}
    (he : exec i s = finish len r) (hr : s.runState = .running) (h : r = .next u) (hu : OnlyStack s u xs) :
    Completes i s (s.pc + BitVec.ofNat 32 len) xs := by
  have hl := hu.leaves len
  rw [hr] at hl
  exact ⟨endStep len u, by rw [he, h, finish_next], hl⟩

/-- A handler that raised a break after touching only the stack breaks. -/
theorem Breaks.of_onlyStack {i : Instr} {s u : State} {len : Nat} {r : Result State} {c : BreakCause}
    {xs : List Word} (he : exec i s = finish len r) (h : r = .next (raiseBreak c u)) (hu : OnlyStack s u xs) :
    Breaks i s c (s.pc + BitVec.ofNat 32 len) xs :=
  ⟨endStep len (raiseBreak c u), by rw [he, h, finish_next], hu.leaves_broken c len⟩

theorem unary_empty {s t : State} (h : OnlyStack s t []) (f : Word → Word) :
    unary f t = .next (raiseBreak .stackUnderflow t) := popThen_empty h _

theorem unary_top {s t : State} {xs : List Word} {x : Word} (h : OnlyStack s t (xs ++ [x]))
    (hr : s.runState = .running) (f : Word → Word) :
    ∃ u, unary f t = .next u ∧ OnlyStack s u (xs ++ [f x]) := by
  have hlen := h.length_le
  obtain ⟨u, hp, hu⟩ := popThen_top h hr fun a s1 => push (f a) s1
  obtain ⟨w, hq, hw⟩ := push_room (f x) hu (by simp at hlen; omega)
  exact ⟨w, hp.trans hq, hw⟩

theorem binary_short {s t : State} {xs : List Word} (h : OnlyStack s t xs) (hr : s.runState = .running)
    (hl : xs.length < 2) (f : Word → Word → Word) :
    ∃ u, binary f t = .next (raiseBreak .stackUnderflow u) ∧ OnlyStack s u [] := popTwo_short h hr hl _

theorem binary_top {s t : State} {xs : List Word} {x y : Word} (h : OnlyStack s t (xs ++ [x, y]))
    (hr : s.runState = .running) (f : Word → Word → Word) :
    ∃ u, binary f t = .next u ∧ OnlyStack s u (xs ++ [f y x]) := by
  have hlen := h.length_le
  obtain ⟨u, hp, hu⟩ := popTwo_top h hr fun a b s2 => push (f a b) s2
  obtain ⟨w, hq, hw⟩ := push_room (f y x) hu (by simp at hlen; omega)
  exact ⟨w, hp.trans hq, hw⟩

theorem shift_short {s t : State} {xs : List Word} (h : OnlyStack s t xs) (hr : s.runState = .running)
    (hl : xs.length < 2) (f : Word → Word → Word) :
    ∃ u, shift f t = .next (raiseBreak .stackUnderflow u) ∧ OnlyStack s u [] := popTwo_short h hr hl _

/-- A shift by less than 32. -/
theorem shift_small {s t : State} {xs : List Word} {x y : Word} (h : OnlyStack s t (xs ++ [x, y]))
    (hr : s.runState = .running) (hx : x.toNat < 32) (f : Word → Word → Word) :
    ∃ u, shift f t = .next u ∧ OnlyStack s u (xs ++ [f y x]) := by
  have hlen := h.length_le
  obtain ⟨u, hp, hu⟩ := popTwo_top h hr fun a b s2 =>
    if b.toNat < 32 then push (f a b) s2 else push (drawShift s2).1 (drawShift s2).2
  obtain ⟨w, hq, hw⟩ := push_room (f y x) hu (by simp at hlen; omega)
  exact ⟨w, by rw [shift, hp, if_pos hx, hq], hw⟩

/-- A shift by 32 or more pushes the draw and counts it. -/
theorem shift_large {s t : State} {xs : List Word} {x y : Word} (h : OnlyStack s t (xs ++ [x, y]))
    (hr : s.runState = .running) (hx : 32 ≤ x.toNat) (f : Word → Word → Word) :
    ∃ u, shift f t = .next u ∧
      OnlyStack { s with draws := s.draws + 1 } u (xs ++ [Config.shiftLarge s.draws]) := by
  have hlen := h.length_le
  obtain ⟨u, hp, hu⟩ := popTwo_top h hr fun a b s2 =>
    if b.toNat < 32 then push (f a b) s2 else push (drawShift s2).1 (drawShift s2).2
  have hd : u.draws = s.draws := by rw [hu.1]
  have hu' : OnlyStack { s with draws := s.draws + 1 } (drawShift u).2 xs := by
    refine ⟨?_, hu.2.1, hu.2.2⟩
    rw [drawShift, hd, hu.1]
  obtain ⟨w, hq, hw⟩ := push_room (Config.shiftLarge s.draws) hu' (by simp at hlen ⊢; omega)
  refine ⟨w, ?_, hw⟩
  rw [shift, hp, if_neg (by omega), drawShift_fst, hd, hq]

end Sys2Proof.Machine
end

