-- ==== Sys2Proof/Laws/PerInstr.lean ====
section
/-!
SUPPORT. The per-instruction family `Format`: the encoding of an instruction has its length in cells, begins with its
tag's opcode value (an unrecognized cell with itself), and holds its immediate in the second cell (R64-R67, R78).
-/

namespace Sys2Proof.Laws.Format

/-- The format of one instruction, under every map. -/
def Statement (i : Instr) : Prop :=
  ∀ map : OpcodeMap, (encode map i).length = instrLen i ∧
    (encode map i).head? = (match i with
      | .unrecognized w => some w
      | _ => some (opcodeOf map (instrTag i))) ∧
    (encode map i)[1]? = (instrImm i).map u32

theorem nop : Statement .nop := fun _ => ⟨rfl, rfl, rfl⟩
theorem halt : Statement .halt := fun _ => ⟨rfl, rfl, rfl⟩
theorem push (imm : Int) : Statement (.push imm) := fun _ => ⟨rfl, rfl, rfl⟩
theorem print : Statement .print := fun _ => ⟨rfl, rfl, rfl⟩
theorem swap : Statement .swap := fun _ => ⟨rfl, rfl, rfl⟩
theorem dup : Statement .dup := fun _ => ⟨rfl, rfl, rfl⟩
theorem ovr : Statement .ovr := fun _ => ⟨rfl, rfl, rfl⟩
theorem inc : Statement .inc := fun _ => ⟨rfl, rfl, rfl⟩
theorem add : Statement .add := fun _ => ⟨rfl, rfl, rfl⟩
theorem sub : Statement .sub := fun _ => ⟨rfl, rfl, rfl⟩
theorem mod : Statement .mod := fun _ => ⟨rfl, rfl, rfl⟩
theorem mul : Statement .mul := fun _ => ⟨rfl, rfl, rfl⟩
theorem rand : Statement .rand := fun _ => ⟨rfl, rfl, rfl⟩
theorem dec : Statement .dec := fun _ => ⟨rfl, rfl, rfl⟩
theorem drop : Statement .drop := fun _ => ⟨rfl, rfl, rfl⟩
theorem je (imm : Int) : Statement (.je imm) := fun _ => ⟨rfl, rfl, rfl⟩
theorem jne (imm : Int) : Statement (.jne imm) := fun _ => ⟨rfl, rfl, rfl⟩
theorem jump (imm : Int) : Statement (.jump imm) := fun _ => ⟨rfl, rfl, rfl⟩
theorem and : Statement .and := fun _ => ⟨rfl, rfl, rfl⟩
theorem or : Statement .or := fun _ => ⟨rfl, rfl, rfl⟩
theorem xor : Statement .xor := fun _ => ⟨rfl, rfl, rfl⟩
theorem shl : Statement .shl := fun _ => ⟨rfl, rfl, rfl⟩
theorem shr : Statement .shr := fun _ => ⟨rfl, rfl, rfl⟩
theorem rot : Statement .rot := fun _ => ⟨rfl, rfl, rfl⟩
theorem sqrt : Statement .sqrt := fun _ => ⟨rfl, rfl, rfl⟩
theorem pick : Statement .pick := fun _ => ⟨rfl, rfl, rfl⟩
theorem brk : Statement .brk := fun _ => ⟨rfl, rfl, rfl⟩
theorem unrecognized (cell : Word) : Statement (.unrecognized cell) := fun _ => ⟨rfl, rfl, rfl⟩

end Sys2Proof.Laws.Format
end

