-- ==== Sys2Proof/Laws/Total.lean ====
section
/-!
SUPPORT. With sp in range every operation and every instruction answers a next state, and sp stays in range: the
model's faults are out of reach.
-/

namespace Sys2Proof.Machine

theorem pop_answers {s : State} (h : SpInRange s) : ∃ v u, pop s = .next (v, u) ∧ SpInRange u := by
  by_cases h0 : s32 s.sp < 0
  · exact ⟨0, _, if_pos h0, h⟩
  · obtain ⟨h1, h2, h3⟩ := h
    have e : s32 (s.sp - 1) = s32 s.sp - 1 := s32_sub_one (by norm_num; omega)
    have hr : stackRead s (s32 s.sp) = .next (stackEntry s (s32 s.sp).toNat) :=
      if_pos ⟨by omega, by omega⟩
    refine ⟨_, { s with sp := s.sp - 1 }, by rw [pop, if_neg h0, hr, andThen_next], ?_, ?_, h3⟩ <;>
      simp only [e] <;> omega

theorem push_answers {s : State} (v : Word) (h : SpInRange s) : ∃ u, push v s = .next u ∧ SpInRange u := by
  by_cases h0 : (s.cfg.stackCapacity : Int) - 1 ≤ s32 s.sp + 1
  · exact ⟨_, if_pos h0, h⟩
  · obtain ⟨h1, h2, h3⟩ := h
    have e : s32 (s.sp + 1) = s32 s.sp + 1 := s32_add_one (by norm_num at *; omega)
    let u : State := { s with sp := s.sp + 1, stack := memWrite s.stack (s32 s.sp + 1).toNat v }
    have hu : push v s = .next u := by
      rw [push, if_neg h0, stackWrite, if_pos ⟨by omega, by simp only; omega⟩]
    exact ⟨u, hu, by simp only [u, e]; omega, by simp only [u, e]; omega, h3⟩

theorem pickAt_answers {s : State} (n : Word) (h : SpInRange s) :
    ∃ v u, pickAt n s = .next (v, u) ∧ SpInRange u := by
  by_cases h0 : s32 s.sp - n.toNat < 0
  · exact ⟨0, _, if_pos h0, h⟩
  · have h2 := h.2.1
    have hr : stackRead s (s32 s.sp - n.toNat) = .next (stackEntry s (s32 s.sp - n.toNat).toNat) :=
      if_pos ⟨by omega, by omega⟩
    exact ⟨_, s, by rw [pickAt, if_neg h0, hr, andThen_next], h⟩

/-- Some next state is answered. -/
abbrev Answers (r : Result State) : Prop := ∃ t, r = .next t

theorem push_answers' {s : State} (v : Word) (h : SpInRange s) : Answers (push v s) :=
  (push_answers v h).imp fun _ h => h.1

theorem unlessAbandoned_answers {s : State} {k : State → Result State} (hk : Answers (k s)) :
    Answers (unlessAbandoned s k) := by
  unfold unlessAbandoned
  split
  · exact hk
  · exact ⟨s, rfl⟩

theorem popThen_answers {s : State} {k : Word → State → Result State} (h : SpInRange s)
    (hk : ∀ v u, SpInRange u → Answers (k v u)) : Answers (popThen s k) := by
  obtain ⟨v, u, hp, hu⟩ := pop_answers h
  rw [popThen, hp, andThen_next]
  exact unlessAbandoned_answers (hk v u hu)

theorem popTwo_answers {s : State} {k : Word → Word → State → Result State} (h : SpInRange s)
    (hk : ∀ a b u, SpInRange u → Answers (k a b u)) : Answers (popTwo s k) :=
  popThen_answers h fun a _ hu => popThen_answers hu fun b u => hk a b u

theorem pushThen_answers {s : State} {v : Word} {k : State → Result State} (h : SpInRange s)
    (hk : ∀ u, SpInRange u → Answers (k u)) : Answers (pushThen v s k) := by
  obtain ⟨u, hp, hu⟩ := push_answers v h
  rw [pushThen, hp, andThen_next]
  exact unlessAbandoned_answers (hk u hu)

theorem pickThen_answers {s : State} {n : Word} {k : Word → State → Result State} (h : SpInRange s)
    (hk : ∀ v u, SpInRange u → Answers (k v u)) : Answers (pickThen n s k) := by
  obtain ⟨v, u, hp, hu⟩ := pickAt_answers n h
  rw [pickThen, hp, andThen_next]
  exact unlessAbandoned_answers (hk v u hu)

theorem finish_answers {len : Nat} {r : Result State} (h : Answers r) : Answers (finish len r) := by
  obtain ⟨t, rfl⟩ := h
  exact ⟨_, rfl⟩

/-- With sp in range every instruction answers a next state. -/
theorem exec_answers (i : Instr) {s : State} (h : SpInRange s) : Answers (exec i s) := by
  cases i
  case nop | halt | jump | brk | unrecognized => exact ⟨_, rfl⟩
  all_goals refine finish_answers ?_
  case push => exact push_answers' _ h
  case print | drop | je | jne => exact popThen_answers h fun _ _ _ => ⟨_, rfl⟩
  case swap => exact popTwo_answers h fun _ _ _ h => pushThen_answers h fun _ h => push_answers' _ h
  case dup => exact popThen_answers h fun _ _ h => pushThen_answers h fun _ h => push_answers' _ h
  case ovr =>
    exact popTwo_answers h fun _ _ _ h => pushThen_answers h fun _ h => pushThen_answers h fun _ h =>
      push_answers' _ h
  case rot =>
    exact popTwo_answers h fun _ _ _ h => popThen_answers h fun _ _ h => pushThen_answers h fun _ h =>
      pushThen_answers h fun _ h => push_answers' _ h
  case pick => exact popThen_answers h fun _ _ h => pickThen_answers h fun _ _ h => push_answers' _ h
  case inc | dec | sqrt => exact popThen_answers h fun _ _ h => push_answers' _ h
  case add | sub | mul | and | or | xor => exact popTwo_answers h fun _ _ _ h => push_answers' _ h
  case mod =>
    refine popTwo_answers h fun a b u h => ?_
    split
    · exact ⟨_, rfl⟩
    · exact push_answers' _ h
  case shl | shr =>
    refine popTwo_answers h fun a b u h => ?_
    split
    · exact push_answers' _ h
    · exact push_answers' _ (show SpInRange (drawShift u).2 from h)
  case rand =>
    refine push_answers' _ (show SpInRange (drawRand s).2 from ?_)
    unfold drawRand
    split <;> exact h

end Sys2Proof.Machine
end

