-- ==== Sys2Proof/Tests/Slice0.lean ====
section
/-!
SUPPORT. Tests of one step each, with expected results from 95_test_vectors.md (V) or worked by hand from the rule
named; words written out from 30_encoding.md R64, R67 and R70; ill-formed terms that WellFormed refuses; and, for
every statement with hypotheses, a witness that meets them, at the boundary of each clause.
-/

namespace Sys2Proof.Tests

open Sys2Proof Sys2Proof.Machine

/-! ## States for the tests -/

/-- The run-start state with STACK_CAPACITY `cap` and the stack `l`, bottom first, written by this run. -/
def vmCap (cap : Nat) (l : List Word) : State :=
  { State.reset with
    cfg := { State.reset.cfg with stackCapacity := cap }
    sp := BitVec.ofNat 32 l.length - 1
    stack := (List.range l.length).zip l }

/-- The convention of 95_test_vectors.md: STACK_CAPACITY 8. -/
def vm (l : List Word) : State := vmCap 8 l

/-- A store of exactly `cells`, everything else as in `vm`. -/
def store (cells l : List Word) : State :=
  { vm l with
    cfg := { (vm l).cfg with programSize := cells.length }
    prog := (List.range cells.length).zip cells }

/-- What a vector of 95_test_vectors.md says of an end state: state, cause, pc and stack; one step was counted. -/
def endsIn (r : Result State) (st : RunState) (c : BreakCause) (pc : Word) (live : List Word) : Bool :=
  match r with
  | .next t => decide (t.runState = st ∧ t.cause = c ∧ t.pc = pc ∧ liveStack t = live ∧ t.steps = 1)
  | .fault _ => false
  | .refused _ => false

/-- The print events of an end state. -/
def printed (r : Result State) : Option (List Word) :=
  match r with
  | .next t => some t.out
  | .fault _ => none
  | .refused _ => none

/-- The bottom entry and the draws taken in an end state. -/
def bottomAndDraws (r : Result State) : Option (Option Word × Nat) :=
  match r with
  | .next t => some ((liveStack t).head?, t.draws)
  | .fault _ => none
  | .refused _ => none

/-! ## WellFormed refuses each ill-formed term -/

theorem test_wf_push_too_big : Instr.wellFormed defaultOpcodeMap (.push (2 ^ 31)) = false := by decide
theorem test_wf_push_too_small : Instr.wellFormed defaultOpcodeMap (.push (-2 ^ 31 - 1)) = false := by decide
theorem test_wf_je_too_big : Instr.wellFormed defaultOpcodeMap (.je (2 ^ 31)) = false := by decide
theorem test_wf_jne_too_small : Instr.wellFormed defaultOpcodeMap (.jne (-2 ^ 31 - 1)) = false := by decide
theorem test_wf_jump_too_big : Instr.wellFormed defaultOpcodeMap (.jump (2 ^ 31)) = false := by decide
theorem test_wf_recognized_cell : Instr.wellFormed defaultOpcodeMap (.unrecognized 8) = false := by decide
theorem test_wf_extremes_pass :
    Instr.wellFormed defaultOpcodeMap (.push (2 ^ 31 - 1)) = true ∧
    Instr.wellFormed defaultOpcodeMap (.jump (-2 ^ 31)) = true ∧
    Instr.wellFormed defaultOpcodeMap (.unrecognized 27) = true := by decide
theorem test_wf_map_not_injective : ¬ OpcodeMap.Injective { defaultOpcodeMap with brk := 0 } := by decide
theorem test_wf_no_program_store : ¬ Config.WellFormed { State.reset.cfg with programSize := 0 } := by decide
theorem test_wf_program_store_too_big :
    ¬ Config.WellFormed { State.reset.cfg with programSize := 2 ^ 31 } := by decide
theorem test_wf_no_stack : ¬ Config.WellFormed { State.reset.cfg with stackCapacity := 0 } := by decide
theorem test_wf_stack_too_big : ¬ Config.WellFormed { State.reset.cfg with stackCapacity := 2 ^ 31 } := by decide
theorem test_wf_config_passes : Config.WellFormed State.reset.cfg := by decide

/-! ## Decoding, from words written out bit by bit (R64, R67, R70) -/

theorem test_decode_nop :
    decode defaultOpcodeMap [0b00000000_00000000_00000000_00000000#32] = .instr .nop := by decide
theorem test_decode_halt :
    decode defaultOpcodeMap [0b00000000_00000000_00000000_00000001#32] = .instr .halt := by decide
theorem test_decode_print :
    decode defaultOpcodeMap [0b00000000_00000000_00000000_00000011#32] = .instr .print := by decide
theorem test_decode_swap :
    decode defaultOpcodeMap [0b00000000_00000000_00000000_00000100#32] = .instr .swap := by decide
theorem test_decode_dup :
    decode defaultOpcodeMap [0b00000000_00000000_00000000_00000101#32] = .instr .dup := by decide
theorem test_decode_ovr :
    decode defaultOpcodeMap [0b00000000_00000000_00000000_00000110#32] = .instr .ovr := by decide
theorem test_decode_inc :
    decode defaultOpcodeMap [0b00000000_00000000_00000000_00000111#32] = .instr .inc := by decide
theorem test_decode_add :
    decode defaultOpcodeMap [0b00000000_00000000_00000000_00001000#32] = .instr .add := by decide
theorem test_decode_sub :
    decode defaultOpcodeMap [0b00000000_00000000_00000000_00001001#32] = .instr .sub := by decide
theorem test_decode_mod :
    decode defaultOpcodeMap [0b00000000_00000000_00000000_00001010#32] = .instr .mod := by decide
theorem test_decode_mul :
    decode defaultOpcodeMap [0b00000000_00000000_00000000_00001011#32] = .instr .mul := by decide
theorem test_decode_rand :
    decode defaultOpcodeMap [0b00000000_00000000_00000000_00001100#32] = .instr .rand := by decide
theorem test_decode_dec :
    decode defaultOpcodeMap [0b00000000_00000000_00000000_00001101#32] = .instr .dec := by decide
theorem test_decode_drop :
    decode defaultOpcodeMap [0b00000000_00000000_00000000_00001110#32] = .instr .drop := by decide
theorem test_decode_and :
    decode defaultOpcodeMap [0b00000000_00000000_00000000_00010010#32] = .instr .and := by decide
theorem test_decode_or :
    decode defaultOpcodeMap [0b00000000_00000000_00000000_00010011#32] = .instr .or := by decide
theorem test_decode_xor :
    decode defaultOpcodeMap [0b00000000_00000000_00000000_00010100#32] = .instr .xor := by decide
theorem test_decode_shl :
    decode defaultOpcodeMap [0b00000000_00000000_00000000_00010101#32] = .instr .shl := by decide
theorem test_decode_shr :
    decode defaultOpcodeMap [0b00000000_00000000_00000000_00010110#32] = .instr .shr := by decide
theorem test_decode_rot :
    decode defaultOpcodeMap [0b00000000_00000000_00000000_00010111#32] = .instr .rot := by decide
theorem test_decode_sqrt :
    decode defaultOpcodeMap [0b00000000_00000000_00000000_00011000#32] = .instr .sqrt := by decide
theorem test_decode_pick :
    decode defaultOpcodeMap [0b00000000_00000000_00000000_00011001#32] = .instr .pick := by decide
theorem test_decode_brk :
    decode defaultOpcodeMap [0b00000000_00000000_00000000_00011010#32] = .instr .brk := by decide
theorem test_decode_push :
    decode defaultOpcodeMap [0b00000000_00000000_00000000_00000010#32,
      0b11111111_11111111_11111111_11111110#32] = .instr (.push (-2)) := by decide
theorem test_decode_je :
    decode defaultOpcodeMap [0b00000000_00000000_00000000_00001111#32,
      0b00000000_00000000_00000000_00000100#32] = .instr (.je (4)) := by decide
theorem test_decode_jne :
    decode defaultOpcodeMap [0b00000000_00000000_00000000_00010000#32,
      0b11111111_11111111_11111111_11111010#32] = .instr (.jne (-6)) := by decide
theorem test_decode_jump :
    decode defaultOpcodeMap [0b00000000_00000000_00000000_00010001#32,
      0b10000000_00000000_00000000_00000000#32] = .instr (.jump (-2147483648)) := by decide
theorem test_decode_unrecognized :
    decode defaultOpcodeMap [0b00000000_00000000_00000000_00011011#32] =
      .instr (.unrecognized 27) := by decide
/-- Any bit above the opcode's makes another cell (R65). -/
theorem test_decode_high_bit :
    decode defaultOpcodeMap [0b10000000_00000000_00000000_00001000#32] =
      .instr (.unrecognized 0x80000008) := by decide
/-- V S1, S2: a two-cell opcode with nothing after it. -/
theorem test_decode_truncated :
    decode defaultOpcodeMap [0b00000000_00000000_00000000_00000010#32] = .truncated ∧
    decode defaultOpcodeMap [0b00000000_00000000_00000000_00001111#32] = .truncated := by decide
theorem test_decode_no_cell : decode defaultOpcodeMap [] = .pcOutOfRange := by decide
/-- The table's numbering: the second cell is bits 63 .. 32. -/
theorem test_decode_table_word :
    decodeTableWord 64 0xFFFFFFFF_00000002 = some (.push (-1)) ∧
    decodeTableWord 32 0x00000012 = some .and ∧
    decodeTableWord 32 0x0000000F = some (.je 0) := by decide
/-- V P1: `JNE loop` at index 6 with the label at index 2. -/
theorem test_label_immediate : encode defaultOpcodeMap (.jne (labelImm 6 2)) = [16, 0xFFFFFFFA] := by decide
/-- V-L1-2. -/
theorem test_encode_program :
    encodeProgram defaultOpcodeMap [.push 5, .push 3, .sub, .print, .halt] = [2, 5, 2, 3, 9, 3, 1] := by decide

/-! ## One step per instruction (95_test_vectors.md 2.1) -/

theorem test_nop_keeps_the_stack : endsIn (exec .nop (vm [5])) .running .noCause 1 [5] := by decide
theorem test_halt_halts : endsIn (exec .halt (vm [3])) .halted .noCause 1 [3] := by decide
theorem test_brk_breaks : endsIn (exec .brk (vm [3])) .brk .explicitBreak 1 [3] := by decide
theorem test_unrecognized_breaks :
    endsIn (exec (.unrecognized 99) (vm [3])) .brk .unrecognizedOpcode 1 [3] := by decide
theorem test_push_most_negative :
    endsIn (exec (.push (-2147483648)) (vm [])) .running .noCause 2 [0x80000000] := by decide
theorem test_push_full :
    endsIn (exec (.push 1) (vm [1, 2, 3, 4, 5, 6, 7])) .brk .stackOverflow 2 [1, 2, 3, 4, 5, 6, 7] := by decide
theorem test_drop_top : endsIn (exec .drop (vm [4, 9])) .running .noCause 1 [4] := by decide
theorem test_drop_empty : endsIn (exec .drop (vm [])) .brk .stackUnderflow 1 [] := by decide
theorem test_dup_fills :
    endsIn (exec .dup (vm [1, 2, 3, 4, 5, 6])) .running .noCause 1 [1, 2, 3, 4, 5, 6, 6] := by decide
theorem test_dup_full :
    endsIn (exec .dup (vm [1, 2, 3, 4, 5, 6, 7])) .brk .stackOverflow 1 [1, 2, 3, 4, 5, 6, 7] := by decide
theorem test_swap_full :
    endsIn (exec .swap (vm [1, 2, 3, 4, 5, 6, 7])) .running .noCause 1 [1, 2, 3, 4, 5, 7, 6] := by decide
theorem test_swap_one_entry : endsIn (exec .swap (vm [7])) .brk .stackUnderflow 1 [] := by decide
theorem test_over_fills :
    endsIn (exec .ovr (vm [1, 2, 3, 4, 5, 6])) .running .noCause 1 [1, 2, 3, 4, 5, 6, 5] := by decide
theorem test_over_full :
    endsIn (exec .ovr (vm [1, 2, 3, 4, 5, 6, 7])) .brk .stackOverflow 1 [1, 2, 3, 4, 5, 6, 7] := by decide
theorem test_rot_top_to_third :
    endsIn (exec .rot (vm [0, 1, 2, 3])) .running .noCause 1 [0, 3, 1, 2] := by decide
theorem test_rot_two_entries : endsIn (exec .rot (vm [1, 2])) .brk .stackUnderflow 1 [] := by decide
theorem test_pick_bottom :
    endsIn (exec .pick (vm [10, 20, 30, 2])) .running .noCause 1 [10, 20, 30, 10] := by decide
theorem test_pick_unsigned_depth :
    endsIn (exec .pick (vm [10, 20, 30, 0xFFFFFFFF])) .brk .invalidPickDepth 1 [10, 20, 30] := by decide
theorem test_inc_wraps : endsIn (exec .inc (vm [0xFFFFFFFF])) .running .noCause 1 [0] := by decide
theorem test_inc_empty : endsIn (exec .inc (vm [])) .brk .stackUnderflow 1 [] := by decide
theorem test_dec_wraps : endsIn (exec .dec (vm [0])) .running .noCause 1 [0xFFFFFFFF] := by decide
theorem test_dec_empty : endsIn (exec .dec (vm [])) .brk .stackUnderflow 1 [] := by decide
theorem test_add_wraps : endsIn (exec .add (vm [0xFFFFFFFF, 2])) .running .noCause 1 [1] := by decide
theorem test_add_one_entry : endsIn (exec .add (vm [5])) .brk .stackUnderflow 1 [] := by decide
theorem test_sub_top_minus_second : endsIn (exec .sub (vm [3, 5])) .running .noCause 1 [2] := by decide
theorem test_sub_wraps : endsIn (exec .sub (vm [5, 3])) .running .noCause 1 [0xFFFFFFFE] := by decide
theorem test_mul_low_half :
    endsIn (exec .mul (vm [0xFFFFFFFF, 0xFFFFFFFF])) .running .noCause 1 [1] := by decide
theorem test_mul_one_entry : endsIn (exec .mul (vm [9])) .brk .stackUnderflow 1 [] := by decide
theorem test_mod_unsigned :
    endsIn (exec .mod (vm [0x80000000, 0xFFFFFFFF])) .running .noCause 1 [0x7FFFFFFF] := by decide
theorem test_mod_by_zero : endsIn (exec .mod (vm [0, 9])) .brk .divisionByZero 1 [] := by decide
theorem test_sqrt_of_square : endsIn (exec .sqrt (vm [0xFFFE0001])) .running .noCause 1 [0xFFFF] := by decide
theorem test_sqrt_rounds_down : endsIn (exec .sqrt (vm [99])) .running .noCause 1 [9] := by decide
theorem test_and_bits : endsIn (exec .and (vm [0x0C, 0x0A])) .running .noCause 1 [0x08] := by decide
theorem test_and_one_entry : endsIn (exec .and (vm [1])) .brk .stackUnderflow 1 [] := by decide
theorem test_or_bits : endsIn (exec .or (vm [0x0C, 0x0A])) .running .noCause 1 [0x0E] := by decide
theorem test_xor_bits : endsIn (exec .xor (vm [0x0C, 0x0A])) .running .noCause 1 [0x06] := by decide
theorem test_shl_shifts_the_top : endsIn (exec .shl (vm [4, 1])) .running .noCause 1 [0x10] := by decide
theorem test_shr_is_logical :
    endsIn (exec .shr (vm [1, 0xFFFFFFFF])) .running .noCause 1 [0x7FFFFFFF] := by decide
theorem test_je_taken : endsIn (exec (.je (-2)) (vm [0])) .running .noCause 0 [] := by decide
theorem test_je_not_taken : endsIn (exec (.je 4) (vm [1])) .running .noCause 2 [] := by decide
theorem test_jne_taken : endsIn (exec (.jne 4) (vm [0x80000000])) .running .noCause 6 [] := by decide
theorem test_jne_empty : endsIn (exec (.jne 4) (vm [])) .brk .stackUnderflow 2 [] := by decide
theorem test_jump_below_zero : endsIn (exec (.jump (-100)) (vm [])) .running .noCause 0xFFFFFF9E [] := by decide
theorem test_jump_forward : endsIn (exec (.jump 10) (vm [])) .running .noCause 12 [] := by decide
theorem test_print_emits :
    endsIn (exec .print (vm [1, 0xFFFFFFFE])) .running .noCause 1 [1] ∧
    printed (exec .print (vm [1, 0xFFFFFFFE])) = some [0xFFFFFFFE] := by decide
theorem test_print_empty : printed (exec .print (vm [])) = some [] := by decide
theorem test_rand_takes_the_supplied_word :
    endsIn (exec .rand (hostSupplyRand 0x12345678 (vm []))) .running .noCause 1 [0x12345678] := by decide
theorem test_rand_full :
    endsIn (exec .rand (vm [1, 2, 3, 4, 5, 6, 7])) .brk .stackOverflow 1 [1, 2, 3, 4, 5, 6, 7] := by decide
/-- V SHL [32, 1]: the result is not stated, the step completes; here, that one draw was taken. -/
theorem test_shl_large : (bottomAndDraws (exec .shl (vm [32, 1]))).map (·.2) = some 1 := by decide
/-- V SHR [33, 5]. -/
theorem test_shr_large : (bottomAndDraws (exec .shr (vm [33, 5]))).map (·.2) = some 1 := by decide

/-! ## One step of the machine (95_test_vectors.md 2.2, 2.3) -/

/-- V S5: the next cell is not executed. -/
theorem test_step_unrecognized :
    endsIn (step (store [27, 1] [])) .brk .unrecognizedOpcode 1 [] := by decide
/-- V S1. -/
theorem test_step_truncated : endsIn (step (store [2] [])) .brk .truncatedInstruction 1 [] := by decide
/-- V S8, its second step: pc = PROGRAM_SIZE. -/
theorem test_step_out_of_range :
    endsIn (step { store [0] [] with pc := 1 }) .brk .pcOutOfRange 2 [] := by decide
/-- R112: u32(pc + 1) is 0 for pc = 0xFFFFFFFF. -/
theorem test_step_out_of_range_wraps :
    endsIn (step { store [0] [] with pc := 0xFFFFFFFF }) .brk .pcOutOfRange 0 [] := by decide
/-- V S11, its second step: an immediate cell decoded as an opcode. -/
theorem test_step_immediate_as_opcode :
    endsIn (step { store [17, 0xFFFFFFFF, 1] [] with pc := 1 }) .brk .unrecognizedOpcode 2 [] := by decide
/-- V B1: no step with a budget of 0. -/
theorem test_step_budget_zero :
    step { store [1] [] with stepBudget := 0 } = .next { store [1] [] with stepBudget := 0 } := rfl
/-- V B2: a terminal state wins over the budget. -/
theorem test_step_budget_one :
    endsIn (step { store [1] [] with stepBudget := 1 }) .halted .noCause 1 [] := by decide
/-- The first instruction after reset is the one placed. -/
theorem test_step_placed_word :
    endsIn (step (State.reset.withFetchWord 64 0xFFFFFFFF_00000002)) .running .noCause 2 [0xFFFFFFFF] := by decide
/-- V-L1-7, its first two cells; the rest of the store is not read. -/
theorem test_step_placed_word_needs_no_more :
    endsIn (step (State.reset.withFetchWord 32 26)) .brk .explicitBreak 1 [] := by decide
/-- R28, R141, R31: the codes on the ports. -/
theorem test_port_codes :
    stateCode .brk = 2 ∧ causeCode .explicitBreak = 8 ∧ strategyCode .handlerChained = 1 := by decide
/-- V S14: status success with the budget used up. -/
theorem test_status_budget :
    statusOut { vm [] with steps := 1, stepBudget := 1 } = some true ∧
    statusOut { vm [] with runState := .brk, cause := .explicitBreak } = some false ∧
    statusOut (vm []) = none := by decide
/-- R165: boot loads from index 0 and starts. -/
theorem test_boot :
    (hostBoot [17, 0xFFFFFFFE] 5 .handlerChained { State.reset with started := false }).map
      (fun s => (s.prog, s.stepBudget, s.dispatchStrategy, s.started)) =
    some ([(0, 17), (1, 0xFFFFFFFE)], 5, .handlerChained, true) := by decide
/-- V-L1-6: the self-loop under a budget of 1, both strategies. -/
theorem test_run_budget :
    run 1 { store [17, 0xFFFFFFFE] [] with stepBudget := 1 } =
      some (.next { store [17, 0xFFFFFFFE] [] with stepBudget := 1, steps := 1 }) ∧
    runHandlers 1 { store [17, 0xFFFFFFFE] [] with stepBudget := 1 } =
      some (.next { store [17, 0xFFFFFFFE] [] with stepBudget := 1, steps := 1 }) := ⟨rfl, rfl⟩

/-! ## Witnesses: hypotheses met together -/

/-- A state in which no step may begin, with a used-up budget. -/
def idle : State := { vm [1] with stepBudget := 0 }

/-- Every opcode-map hypothesis about the cell 27. -/
theorem not_an_opcode (m : Mnemonic) : opcodeOf defaultOpcodeMap m ≠ 27 := by cases m <;> decide

theorem witness_StartAppliesTheRunStartState :
    stepAllowed idle = false ∧ stepAllowed { idle with sp := -1, runState := .halted } = false ∧
    stepAllowed (vm []) = true := by decide
theorem witness_LoadPortWritesOneCell :
    stepAllowed (vm []) = true ∧ idle.cfg.programSize ≤ (0x7FFFFFFF : Word).toNat ∧
    stepAllowed idle = false ∧ (0x7FFFFFFE : Word).toNat < idle.cfg.programSize := by decide
/-- A step of a full stack, one of an empty stack and one beyond the store, from states that meet the invariant. -/
theorem witness_StepKeepsTheInvariant :
    (store [5] [1, 2, 3, 4, 5, 6, 7]).Inv ∧
    endsIn (step (store [5] [1, 2, 3, 4, 5, 6, 7])) .brk .stackOverflow 1 [1, 2, 3, 4, 5, 6, 7] ∧
    (store [2, 9] []).Inv ∧ endsIn (step (store [2, 9] [])) .running .noCause 2 [9] ∧
    ({ store [0] [] with pc := 1 } : State).Inv := by decide
theorem witness_HostMovesKeepTheInvariant :
    idle.Inv ∧ (hostStart 3 .centralLoop idle).isSome := by decide
theorem witness_StepNeverReachesOutsideTheArrays :
    (store [14] [1, 2, 3, 4, 5, 6, 7]).Inv ∧ (store [14] []).Inv ∧ (vmCap 1 []).Inv := by decide
theorem witness_FetchBeyondTheStoreBreaks :
    ({ store [0] [] with pc := 1 } : State).cfg.programSize ≤ ({ store [0] [] with pc := 1 } : State).pc.toNat := by
  decide
theorem witness_FetchOfAnUnknownOpcode :
    (store [27] []).pc.toNat < (store [27] []).cfg.programSize ∧
    ∀ m, opcodeOf (store [27] []).cfg.opcodeMap m ≠ progCell (store [27] []) (store [27] []).pc.toNat :=
  ⟨by decide, not_an_opcode⟩
/-- A one-cell opcode, a two-cell opcode in the last cell, and one in the last cell but one. -/
theorem witness_FetchOfAKnownOpcode :
    (store [25] []).cfg.opcodeMap.Injective ∧ (store [25] []).pc.toNat < (store [25] []).cfg.programSize ∧
    progCell (store [25] []) 0 = opcodeOf (store [25] []).cfg.opcodeMap .pick ∧
    (Mnemonic.pick) ∉ [Mnemonic.push, .je, .jne, .jump] ∧
    progCell (store [16] []) 0 = opcodeOf (store [16] []).cfg.opcodeMap .jne ∧
    (store [16] []).cfg.programSize ≤ (store [16] []).pc.toNat + 1 ∧
    progCell (store [16, 7] []) 0 = opcodeOf (store [16, 7] []).cfg.opcodeMap .jne ∧
    (store [16, 7] []).pc.toNat + 1 < (store [16, 7] []).cfg.programSize := by decide
theorem holds_push : Holds (store [2, 5] []) 0 (.push 5) :=
  ⟨by decide, fun k v h => by
    match k with
    | 0 => cases h; decide
    | 1 => cases h; decide
    | _ + 2 => cases h⟩
theorem holds_unrecognized : Holds (store [27] []) 0 (.unrecognized 27) :=
  ⟨by decide, fun k v h => by
    match k with
    | 0 => cases h; decide
    | _ + 1 => cases h⟩
theorem witness_StepRunsTheInstructionAtPc :
    (store [2, 5] []).cfg.opcodeMap.Injective ∧
    Instr.wellFormed (store [2, 5] []).cfg.opcodeMap (.push 5) = true ∧ stepAllowed (store [2, 5] []) = true ∧
    Holds (store [2, 5] []) (store [2, 5] []).pc.toNat (.push 5) ∧
    Instr.wellFormed (store [27] []).cfg.opcodeMap (.unrecognized 27) = true ∧
    Holds (store [27] []) (store [27] []).pc.toNat (.unrecognized 27) :=
  ⟨by decide, by decide, by decide, holds_push, by decide, holds_unrecognized⟩
theorem witness_StepBeyondTheStore :
    stepAllowed { store [0] [] with pc := 1 } = true ∧
    (store [0] []).cfg.programSize ≤ ({ store [0] [] with pc := 1 } : State).pc.toNat := by decide
theorem witness_StepOfATruncatedInstruction :
    (store [17] []).cfg.WellFormed ∧ stepAllowed (store [17] []) = true ∧
    Mnemonic.jump ∈ [Mnemonic.push, .je, .jne, .jump] ∧
    progCell (store [17] []) (store [17] []).pc.toNat = opcodeOf (store [17] []).cfg.opcodeMap .jump ∧
    (store [17] []).pc.toNat < (store [17] []).cfg.programSize ∧
    (store [17] []).cfg.programSize ≤ (store [17] []).pc.toNat + 1 := by decide
theorem witness_UnrecognizedCellsBreak :
    (store [27] []).runState = .running ∧ stepAllowed (store [27] []) = true ∧
    (store [27] []).pc.toNat < (store [27] []).cfg.programSize ∧
    ∀ m, opcodeOf (store [27] []).cfg.opcodeMap m ≠ progCell (store [27] []) (store [27] []).pc.toNat :=
  ⟨by decide, by decide, by decide, not_an_opcode⟩
theorem witness_BreakDecodingsEndTheRun :
    (vm [3]).runState = .running ∧ decodedCause (.instr .brk) = some .explicitBreak ∧
    decodedCause (.instr (.unrecognized 99)) = some .unrecognizedOpcode ∧
    decodedCause .pcOutOfRange = some .pcOutOfRange ∧ decodedCause .truncated = some .truncatedInstruction := by
  decide
theorem witness_NoStepOutsideARun :
    ({ vm [] with runState := .halted } : State).runState ≠ .running ∧ idle.stepBudget ≤ idle.steps ∧
    ({ vm [] with started := false } : State).started = false ∧ stepAllowed (vm []) = true := by decide
/-- A full stack and a stack with room for one. -/
theorem witness_PushPrimitive :
    SpInRange (vm [1, 2, 3, 4, 5, 6, 7]) ∧ (8 : Int) - 1 ≤ s32 (vm [1, 2, 3, 4, 5, 6, 7]).sp + 1 ∧
    SpInRange (vm [1, 2, 3, 4, 5, 6]) ∧ s32 (vm [1, 2, 3, 4, 5, 6]).sp + 1 < (8 : Int) - 1 := by decide
theorem witness_PopPrimitive :
    SpInRange (vm []) ∧ s32 (vm []).sp < 0 ∧ SpInRange (vm [1]) ∧ 0 ≤ s32 (vm [1]).sp := by decide
theorem witness_PickAtPrimitive :
    SpInRange (vm [1, 2]) ∧ s32 (vm [1, 2]).sp < (2 : Word).toNat ∧ ((1 : Word).toNat : Int) ≤ s32 (vm [1, 2]).sp := by
  decide
theorem witness_NopHasNoEffect : (vm [5]).runState = .running := by decide
theorem witness_HaltEndsTheRunHalted :
    (vm [3]).runState = .running ∧ endsIn (exec .halt (vm [3])) .halted .noCause 1 [3] := by decide

theorem witness_PushStoresTheImmediate :
    defaultOpcodeMap.Injective ∧ immInRange (-2147483648) ∧ immInRange 2147483647 ∧ Ready (vm [1, 2, 3, 4, 5, 6]) ∧
    (liveStack (vm [1, 2, 3, 4, 5, 6])).length + 1 < (vm [1, 2, 3, 4, 5, 6]).cfg.stackCapacity ∧
    Ready (vmCap 1 []) ∧ (liveStack (vmCap 1 [])).length + 1 = (vmCap 1 []).cfg.stackCapacity := by decide
theorem witness_DropDiscardsTheTop :
    endsIn (exec .drop (vm [7])) .running .noCause 1 [] ∧ Ready (vm [7]) ∧ liveStack (vm [7]) = [] ++ [7] ∧
    Ready (vm []) ∧ liveStack (vm []) = [] := by decide
theorem witness_DupDoublesTheTop :
    Ready (vmCap 3 [7]) ∧ liveStack (vmCap 3 [7]) = [] ++ [7] ∧ ([] : List Word).length + 2 < 3 ∧
    Ready (vmCap 2 [7]) ∧ liveStack (vmCap 2 [7]) = [] ++ [7] ∧
    ([] : List Word).length + 2 = (vmCap 2 [7]).cfg.stackCapacity ∧ Ready (vm []) ∧ liveStack (vm []) = [] := by decide
theorem witness_SwapExchangesTheTopTwo :
    Ready (vm [5, 3]) ∧ liveStack (vm [5, 3]) = [] ++ [5, 3] ∧ Ready (vm [7]) ∧ (liveStack (vm [7])).length < 2 := by
  decide
theorem witness_OverCopiesTheSecond :
    Ready (vmCap 4 [5, 3]) ∧ liveStack (vmCap 4 [5, 3]) = [] ++ [5, 3] ∧ ([] : List Word).length + 3 < 4 ∧
    Ready (vmCap 3 [5, 3]) ∧ liveStack (vmCap 3 [5, 3]) = [] ++ [5, 3] ∧
    ([] : List Word).length + 3 = (vmCap 3 [5, 3]).cfg.stackCapacity ∧
    Ready (vm [7]) ∧ (liveStack (vm [7])).length < 2 := by decide
theorem witness_RotMovesTheTopToThird :
    Ready (vm [1, 2, 3]) ∧ liveStack (vm [1, 2, 3]) = [] ++ [1, 2, 3] ∧
    Ready (vm [1, 2]) ∧ (liveStack (vm [1, 2])).length < 3 := by decide
theorem witness_PickCopiesTheEntryAtDepth :
    Ready (vm [10, 20, 30, 2]) ∧ liveStack (vm [10, 20, 30, 2]) = [] ++ [10] ++ [20, 30] ++ [2] ∧
    (2 : Word).toNat = ([20, 30] : List Word).length ∧
    Ready (vm [10, 20, 30, 0]) ∧ liveStack (vm [10, 20, 30, 0]) = [10, 20] ++ [30] ++ [] ++ [0] ∧
    Ready (vm [10, 20, 30, 3]) ∧ liveStack (vm [10, 20, 30, 3]) = [10, 20, 30] ++ [3] ∧
    ([10, 20, 30] : List Word).length ≤ (3 : Word).toNat ∧
    Ready (vm [0]) ∧ liveStack (vm [0]) = [] ++ [0] ∧ ([] : List Word).length ≤ (0 : Word).toNat := by decide
theorem witness_IncAndDecStepByOne : Ready (vm [0xFFFFFFFF]) ∧ liveStack (vm [0xFFFFFFFF]) = [] ++ [0xFFFFFFFF] ∧
    Ready (vm []) ∧ liveStack (vm []) = [] := by decide
theorem witness_AddIsTheSumModulo :
    Ready (vm [0xFFFFFFFF, 2]) ∧ liveStack (vm [0xFFFFFFFF, 2]) = [] ++ [0xFFFFFFFF, 2] ∧
    (liveStack (vm [7])).length < 2 := by decide
theorem witness_SubIsTopMinusSecond :
    Ready (vm [5, 3]) ∧ liveStack (vm [5, 3]) = [] ++ [5, 3] ∧ (liveStack (vm [7])).length < 2 := by decide
theorem witness_MulIsTheLowHalfOfTheProduct :
    Ready (vm [65536, 65536]) ∧ liveStack (vm [65536, 65536]) = [] ++ [65536, 65536] ∧
    (liveStack (vm [7])).length < 2 := by decide
theorem witness_ModIsTopModuloSecond :
    Ready (vm [3, 10]) ∧ liveStack (vm [3, 10]) = [] ++ [3, 10] ∧ (3 : Word) ≠ 0 ∧
    Ready (vm [0, 9]) ∧ liveStack (vm [0, 9]) = [] ++ [0, 9] ∧ (liveStack (vm [0])).length < 2 := by decide
theorem witness_SqrtIsTheExactFloor :
    Ready (vm [0xFFFFFFFF]) ∧ liveStack (vm [0xFFFFFFFF]) = [] ++ [0xFFFFFFFF] ∧ liveStack (vm []) = [] := by decide
theorem witness_AndOrXorActBitwise :
    Ready (vm [12, 10]) ∧ liveStack (vm [12, 10]) = [] ++ [12, 10] ∧ (liveStack (vm [7])).length < 2 := by decide
theorem witness_ShlShiftsTheTopLeft :
    Ready (vm [31, 1]) ∧ liveStack (vm [31, 1]) = [] ++ [31, 1] ∧ (31 : Word).toNat < 32 ∧
    Ready (vm [32, 1]) ∧ liveStack (vm [32, 1]) = [] ++ [32, 1] ∧ 32 ≤ (32 : Word).toNat ∧
    (liveStack (vm [7])).length < 2 := by decide
theorem witness_ShrShiftsTheTopRightLogically :
    Ready (vm [31, 1]) ∧ liveStack (vm [31, 1]) = [] ++ [31, 1] ∧ (31 : Word).toNat < 32 ∧
    Ready (vm [32, 1]) ∧ liveStack (vm [32, 1]) = [] ++ [32, 1] ∧ 32 ≤ (32 : Word).toNat ∧
    (liveStack (vm [7])).length < 2 := by decide
theorem witness_JeJumpsOnZero :
    Ready (vm [0]) ∧ liveStack (vm [0]) = [] ++ [0] ∧ Ready (vm [1]) ∧ liveStack (vm [1]) = [] ++ [1] ∧
    (1 : Word) ≠ 0 ∧ Ready (vm []) ∧ liveStack (vm []) = [] := by decide
theorem witness_JneJumpsOnNonzero :
    Ready (vm [0]) ∧ liveStack (vm [0]) = [] ++ [0] ∧ Ready (vm [1]) ∧ liveStack (vm [1]) = [] ++ [1] ∧
    (1 : Word) ≠ 0 ∧ Ready (vm []) ∧ liveStack (vm []) = [] := by decide
theorem holds_self_loop : Holds (store [17, 0xFFFFFFFE] []) 0 (.jump (-2)) :=
  ⟨by decide, fun k v h => by
    match k with
    | 0 => cases h; decide
    | 1 => cases h; decide
    | _ + 2 => cases h⟩
/-- A jump that leaves the store, and the self-loop. -/
theorem witness_JumpAddsTheImmediate :
    (store [17, 10] []).runState = .running ∧
    exec (.jump 10) (store [17, 10] []) = .next { store [17, 10] [] with pc := 12, steps := 1 } ∧
    stepAllowed { store [17, 10] [] with pc := 12, steps := 1 } = true ∧
    (store [17, 10] []).cfg.programSize ≤ (12 : Word).toNat ∧
    (store [17, 0xFFFFFFFE] []).Inv ∧ stepAllowed (store [17, 0xFFFFFFFE] []) = true ∧
    Holds (store [17, 0xFFFFFFFE] []) (store [17, 0xFFFFFFFE] []).pc.toNat (.jump (-2)) :=
  ⟨rfl, rfl, rfl, by decide, by decide, by decide, holds_self_loop⟩
theorem witness_PrintEmitsTheTop :
    Ready (vm [42]) ∧ liveStack (vm [42]) = [] ++ [42] ∧ Ready (vm []) ∧ liveStack (vm []) = [] := by decide
/-- With a supplied word and without one, on a stack with room and on a full one. -/
theorem witness_RandPushesADraw :
    Ready (hostSupplyRand 9 (vm [])) ∧ (hostSupplyRand 9 (vm [])).randData = 9 :: [] ∧ (vm []).randData = [] ∧
    (liveStack (vm [])).length + 1 < (vm []).cfg.stackCapacity ∧
    Ready (vm [1, 2, 3, 4, 5, 6, 7]) ∧
    (liveStack (vm [1, 2, 3, 4, 5, 6, 7])).length + 1 = (vm [1, 2, 3, 4, 5, 6, 7]).cfg.stackCapacity := by decide
theorem witness_UnderflowExactlyWhenOperandsAreMissing :
    Ready (vm [1, 2]) ∧ (liveStack (vm [1, 2])).length < popCount .rot ∧
    endsIn (exec .rot (vm [1, 2])) .brk .stackUnderflow 1 [] := by decide
theorem witness_OverflowExactlyOnAFullStack :
    Ready (vmCap 3 [1, 2]) ∧ endsIn (exec .ovr (vmCap 3 [1, 2])) .brk .stackOverflow 1 [1, 2] ∧
    (liveStack (vmCap 3 [1, 2])).length + 1 = (vmCap 3 [1, 2]).cfg.stackCapacity ∧
    popCount .ovr ≤ (liveStack (vmCap 3 [1, 2])).length ∧ popCount .ovr < pushCount .ovr := by decide
theorem witness_InstructionsKeepTheRunInputs : endsIn (exec .add (vm [3, 4])) .running .noCause 1 [7] := by decide
/-- `Rot` writes the three slots from 0 to 2; slot 3 is outside. -/
theorem witness_InstructionsWriteOnlyTheirStackSlots :
    endsIn (exec .rot (vm [1, 2, 3])) .running .noCause 1 [3, 1, 2] ∧
    ¬ (s32 (vm [1, 2, 3]).sp - popCount .rot < (3 : Nat) ∧
      ((3 : Nat) : Int) ≤ s32 (vm [1, 2, 3]).sp - popCount .rot + pushCount .rot) := by decide
theorem witness_InstructionsWithoutOperandsKeepTheStack :
    endsIn (exec (.jump 4) (vm [7])) .running .noCause 6 [7] ∧ popCount (.jump 4) = 0 ∧ pushCount (.jump 4) = 0 := by
  decide
theorem witness_OnlyDeviceInstructionsReachTheDevices :
    endsIn (exec .inc (vm [7])) .running .noCause 1 [8] ∧ Instr.inc ≠ .print ∧ Instr.inc ≠ .rand ∧
    Instr.inc ≠ .shl ∧ Instr.inc ≠ .shr := by decide
/-- Each of the three cases. -/
theorem witness_OneTransitionPerStep :
    (vm []).runState = .running ∧ endsIn (exec .nop (vm [])) .running .noCause 1 [] ∧
    endsIn (exec .halt (vm [])) .halted .noCause 1 [] ∧ endsIn (exec .drop (vm [])) .brk .stackUnderflow 1 [] := by
  decide
theorem witness_HaltedOnlyByHalt :
    (store [1] []).runState = .running ∧ endsIn (step (store [1] [])) .halted .noCause 1 [] := by decide
theorem witness_CauseIsWrittenOnce :
    endsIn (step (store [26] [])) .brk .explicitBreak 1 [] ∧ (store [26] []).cause = .noCause := by decide
theorem witness_DecodeOfEncodeIsTheInstruction :
    defaultOpcodeMap.Injective ∧ Instr.wellFormed defaultOpcodeMap (.push (-2147483648)) = true ∧
    Instr.wellFormed defaultOpcodeMap (.unrecognized 0xFFFFFFFF) = true := by decide
theorem witness_DecodedCellsAreTheEncoding : decode defaultOpcodeMap [2, 7, 8] = .instr (.push 7) := by decide
theorem witness_RunsEndTerminalOrAtTheBudget :
    (store [1] []).Inv ∧ (store [1] []).started = true ∧
    run 1 (store [1] []) = some (.next { store [1] [] with pc := 1, steps := 1, runState := .halted }) :=
  ⟨by decide, rfl, rfl⟩
theorem witness_TheBudgetBoundsEveryRun : (store [1] []).Inv ∧ idle.Inv := by decide
theorem witness_RunStatusFollowsTheFinalState :
    doneOut idle = true ∧ doneOut { vm [] with runState := .halted } = true ∧
    doneOut { vm [] with runState := .brk } = true := by decide
theorem witness_StackPortReadsFinalState :
    SpInRange (vm [5, 3]) ∧ ((1 : Word).toNat : Int) ≤ s32 (vm [5, 3]).sp := by decide

end Sys2Proof.Tests
end

section
/-!
Fetch and decode answer in every state, and the step of a cell that is no mnemonic's opcode (30_encoding.md R71, R79).
-/

namespace Sys2Proof.Machine

/-! ## Decoding is total -/

/-- Settles O8: the three cases of what fetch reads, each inside the store, are `exists_fetchCells`, and the decoder
answers on any cells. -/
theorem fetchDecodeIsTotal : Obligations.FetchDecodeIsTotal := by
  intro s
  obtain ⟨cells, hcells⟩ := exists_fetchCells s
  exact ⟨_, _, fetchDecode_of_cells hcells⟩

/-! ## Cells outside the opcode map -/

/-- Only a recognized opcode asks for a second cell (R66). -/
theorem needsImmediate_eq_false_of_lookupOpcode {map : OpcodeMap} {w : Word} (h : lookupOpcode map w = none) :
    needsImmediate map w = false := by
  simp [needsImmediate, h]

/-- A cell outside the map is fetched alone, whatever the next cell holds (R84). -/
theorem fetchCells_unrecognized {s : State} (hpc : s.pc.toNat < s.cfg.programSize)
    (hw : ∀ m, opcodeOf s.cfg.opcodeMap m ≠ progCell s s.pc.toNat) :
    fetchCells s = .next [progCell s s.pc.toNat] := by
  have hn := needsImmediate_eq_false_of_lookupOpcode (lookupOpcode_eq_none.2 hw)
  exact fetchCells_one hpc (by simp [hn])

/-- A cell outside the map decodes to the fallback row and leaves the state as it was (R84). -/
theorem fetchDecode_unrecognized {s : State} (hpc : s.pc.toNat < s.cfg.programSize)
    (hw : ∀ m, opcodeOf s.cfg.opcodeMap m ≠ progCell s s.pc.toNat) :
    fetchDecode s = .next (.instr (.unrecognized (progCell s s.pc.toNat)), s) := by
  rw [fetchDecode_of_cells (fetchCells_unrecognized hpc hw), decode_unrecognized (lookupOpcode_eq_none.2 hw)]
  rfl

/-- The fallback row is the `Break` handler with its decode cause (R71). -/
theorem exec_unrecognized (w : Word) (s : State) : exec (.unrecognized w) s = runBreak .unrecognizedOpcode s := rfl

/-- From `Running` the fallback row breaks with one cell consumed and the stack as it was (R148). -/
theorem breaks_unrecognized {s : State} (hr : s.runState = .running) (w : Word) :
    Breaks (.unrecognized w) s .unrecognizedOpcode (s.pc + 1) (liveStack s) :=
  ⟨_, (exec_unrecognized w s).trans (runBreak_running hr _), leaves_broken s .unrecognizedOpcode 1⟩

/-- The default opcode values, in the order of the mnemonics, are 0 to 26 (R70). -/
theorem map_toNat_opcodeOf_default :
    (allMnemonics.map fun m => (opcodeOf defaultOpcodeMap m).toNat) = List.range 27 := by decide

/-- The cells outside the default map are the values 27 and above (R71). -/
theorem forall_opcodeOf_default_ne_iff (w : Word) : (∀ m, opcodeOf defaultOpcodeMap m ≠ w) ↔ 27 ≤ w.toNat := by
  rw [← not_lt, ← List.mem_range, ← map_toNat_opcodeOf_default]
  simp [BitVec.toNat_inj]

/-- Settles O15: the step runs what it decoded, and the fallback row's handler breaks. -/
theorem unrecognizedCellsBreak : Obligations.UnrecognizedCellsBreak := by
  refine ⟨fun _ => ⟨rfl, rfl, rfl, rfl⟩, fun _ w hr => breaks_unrecognized hr w, fun s ha hpc hw => ?_,
    forall_opcodeOf_default_ne_iff⟩
  obtain ⟨-, hr, -⟩ := (stepAllowed_iff s).1 ha
  rw [step_of_fetch ha (fetchDecode_unrecognized hpc hw)]
  exact breaks_unrecognized hr (progCell s s.pc.toNat)

end Sys2Proof.Machine
end

section
/-!
The sequencer's parts: what fetch and decode give at every pc, the two stack primitives with sp in range, how `Halted`
is reached, and the status of an ended run (40_sequencer.md R81-R84, R87, R88, R99, R106).
-/

namespace Sys2Proof.Machine

/-! ## Fetch and decode, case by case -/

/-- Settles O9: an out-of-range pc is checked before any cell of the store is read. -/
theorem fetchBeyondTheStoreBreaks : Obligations.FetchBeyondTheStoreBreaks := by
  intro s hpc
  exact ⟨fun _ => fetchCells_outOfRange hpc, fetchDecode_of_cells (fetchCells_outOfRange hpc), rfl, rfl, rfl⟩

/-- Settles O10: the cell is fetched alone and decodes to the fallback row. -/
theorem fetchOfAnUnknownOpcode : Obligations.FetchOfAnUnknownOpcode := by
  intro s hpc hw
  exact ⟨fetchCells_unrecognized hpc hw, fetchDecode_unrecognized hpc hw, rfl, rfl, rfl⟩

/-- A recognized opcode asks for a second cell exactly when it has no one-cell form (R66). -/
theorem needsImmediate_of_lookupOpcode {map : OpcodeMap} {w : Word} {m : Mnemonic}
    (h : lookupOpcode map w = some m) : needsImmediate map w = (oneCellInstr m).isNone := by
  simp [needsImmediate, h]

section
variable {s : State} {m : Mnemonic}

/-- A one-cell opcode at pc decodes from its cell alone and changes no state (R82). -/
theorem fetchDecode_oneCell {i : Instr} (hpc : s.pc.toNat < s.cfg.programSize)
    (hm : lookupOpcode s.cfg.opcodeMap (progCell s s.pc.toNat) = some m) (hi : oneCellInstr m = some i) :
    fetchDecode s = .next (.instr i, s) := by
  have hn := needsImmediate_of_lookupOpcode hm
  rw [fetchDecode_of_cells (fetchCells_one hpc (by simp [hn, hi])), decode_oneCell hm hi]
  rfl

/-- A two-cell opcode in the last cell of the store decodes as truncated and changes no state (R83). -/
theorem fetchDecode_truncated (hpc : s.pc.toNat < s.cfg.programSize)
    (hm : lookupOpcode s.cfg.opcodeMap (progCell s s.pc.toNat) = some m) (hi : oneCellInstr m = none)
    (hend : s.cfg.programSize ≤ s.pc.toNat + 1) : fetchDecode s = .next (.truncated, s) := by
  rw [fetchDecode_of_cells (fetchCells_one hpc fun hn => absurd hn.2 (not_lt.2 hend)), decode_truncated hm hi]
  rfl

/-- A two-cell opcode with its second cell inside the store takes that cell's signed reading (R83). -/
theorem fetchDecode_twoCells
    (hm : lookupOpcode s.cfg.opcodeMap (progCell s s.pc.toNat) = some m) (hi : oneCellInstr m = none)
    (hnext : s.pc.toNat + 1 < s.cfg.programSize) :
    fetchDecode s = .next (.instr (twoCellInstr m (s32 (progCell s (s.pc.toNat + 1)))), s) := by
  have hn := needsImmediate_of_lookupOpcode hm
  rw [fetchDecode_of_cells (fetchCells_two (by simp [hn, hi]) hnext), decode_twoCells hm hi]
  rfl

end

/-- Settles O11: an injective map recognizes the cell as `m`, and the three cases of decode follow. -/
theorem fetchOfAKnownOpcode : Obligations.FetchOfAKnownOpcode := by
  intro s m hinj hpc hcell
  have hm : lookupOpcode s.cfg.opcodeMap (progCell s s.pc.toNat) = some m := by
    rw [hcell, lookupOpcode_opcodeOf hinj]
  rw [← oneCellInstr_eq_none]
  refine ⟨fun hone => ?_, fun htwo => ⟨fun hend => ?_, fun hnext => ?_⟩⟩
  · obtain ⟨i, hi⟩ := Option.ne_none_iff_exists'.1 hone
    obtain ⟨htag, hlen, himm, hwf, -⟩ := oneCellInstr_spec hi s.cfg.opcodeMap
    exact ⟨i, fetchDecode_oneCell hpc hm hi, htag, hwf, hlen, himm⟩
  · exact ⟨fetchDecode_truncated hpc hm htwo hend, rfl, rfl⟩
  · obtain ⟨htag, hlen, himm, hwf, -⟩ :=
      twoCellInstr_spec htwo (s32 (progCell s (s.pc.toNat + 1))) s.cfg.opcodeMap
    exact ⟨_, fetchDecode_twoCells hm htwo hnext, htag, hwf.trans (decide_eq_true (immInRange_s32 _)), hlen, himm⟩

/-! ## Push and Pop -/

/-- Reading an entry after a write of the stack array, whatever becomes of sp. -/
theorem stackEntry_memWrite (s : State) (sp : Word) (i : Nat) (v : Word) (k : Nat) :
    stackEntry { s with sp := sp, stack := memWrite s.stack i v } k = if k = i then v else stackEntry s k := by
  simp only [stackEntry, memRead_memWrite]
  split <;> rfl

/-- Settles O18: with room, `Push` answers by `push_room` and `push_eq_next` says which entry it wrote. -/
theorem pushPrimitive : Obligations.PushPrimitive := by
  intro s v h
  have ⟨hlo, hhi, hcap⟩ := h
  refine ⟨fun hfull => if_pos hfull, fun hroom => ?_, (OnlyStack.refl h).length_le⟩
  obtain ⟨t, hpush, hframe, -, hlive⟩ := push_room v (.refl h) (by rw [length_liveStack]; omega)
  obtain ⟨hfull, -⟩ | ⟨-, -, ht⟩ := push_eq_next hpush
  · omega
  have hsp : s32 t.sp = s32 s.sp + 1 := by
    rw [ht]
    exact s32_add_one (by omega)
  have hentry : ∀ k, stackEntry t k = if k = (s32 t.sp).toNat then v else stackEntry s k := by
    rw [hsp, ht]
    exact stackEntry_memWrite s _ _ v
  exact ⟨t, hpush, hframe, hsp, (hentry _).trans (if_pos rfl), fun k hk => (hentry k).trans (if_neg hk), hlive⟩

/-- Settles O19: with sp in range `Pop` answers, and `pop_eq_next` says what it returned and left. -/
theorem popPrimitive : Obligations.PopPrimitive := by
  intro s h
  refine ⟨fun hempty => if_pos hempty, fun hpos => ?_⟩
  obtain ⟨v, t, hpop, -⟩ := pop_answers h
  obtain ⟨hempty, -⟩ | ⟨-, rfl, rfl⟩ := pop_eq_next hpop
  · omega
  have hsp : s32 (s.sp - 1) = s32 s.sp - 1 := s32_sub_one (by omega)
  exact ⟨_, hpop, rfl, hsp, liveStack_eq_snoc hpos hsp fun _ => rfl⟩

/-! ## How `Halted` is reached -/

/-- No move of a handler sets `Halted`: it keeps the run state or breaks. -/
theorem Move.runState_ne_halted {s t : State} (h : Move s t) (hs : s.runState ≠ .halted) :
    t.runState ≠ .halted := by
  cases h with
  | popped hp => rcases pop_eq_next hp with ⟨-, -, rfl⟩ | ⟨-, -, rfl⟩ <;> simp [hs]
  | pushed hp => rcases push_eq_next hp with ⟨-, rfl⟩ | ⟨-, -, rfl⟩ <;> simp [hs]
  | raised => simp
  | emitted | drewRand | drewShift | jumped => simpa using hs

/-- An instruction that takes a state to `Halted` is `Halt` (R106, R111). -/
theorem eq_halt_of_exec_halted {i : Instr} {s t : State} (hs : s.runState ≠ .halted) (h : exec i s = .next t)
    (ht : t.runState = .halted) : i = .halt := by
  by_contra hi
  obtain ⟨u, hu, rfl⟩ := exec_moves hi h
  exact hu.keeps (P := fun s => s.runState ≠ .halted) (fun _ _ => Move.runState_ne_halted) hs ht

/-- Settles O51: of the cases of a step only an executed instruction can reach `Halted`, and that one is `Halt`. -/
theorem haltedOnlyByHalt : Obligations.HaltedOnlyByHalt := by
  intro s t hr hstep ht
  have hs : s.runState ≠ .halted := by simp [hr]
  obtain ⟨-, rfl⟩ | ⟨-, i, hfetch, hexec⟩ | ⟨-, c, -, rfl⟩ := step_eq_next hstep
  · exact absurd ht hs
  · rwa [eq_halt_of_exec_halted hs hexec ht] at hfetch
  · simp at ht

/-! ## The status of an ended run -/

/-- Settles O59: at the end of a run the status is decided by the run state alone, and in `Running` by the budget. -/
theorem runStatusFollowsTheFinalState : Obligations.RunStatusFollowsTheFinalState := by
  intro s hdone
  rw [statusOut, if_pos hdone]
  cases s.runState with
  | running | halted | brk => simp

end Sys2Proof.Machine
end

section
/-!
The control instructions: `Nop` and `Halt` end their step with the stack as it was, and every `Break` decoding runs the
one `Break` handler with its decode cause (41_control.md).
-/

namespace Sys2Proof.Machine

/-! ## Nop and Halt -/

/-- A handler that does nothing but set the run state, followed by its end of step. -/
theorem leaves_endStep_runState (s : State) (r : RunState) (len : Nat) :
    Leaves s (endStep len { s with runState := r }) (s.pc + BitVec.ofNat 32 len) (liveStack s) r s.cause ∧
      SameDevices s (endStep len { s with runState := r }) :=
  ⟨⟨rfl, rfl, rfl, rfl, rfl, rfl, rfl, rfl, rfl, rfl, rfl⟩, rfl, rfl, rfl⟩

/-- `Nop` is the end of step alone (R110). -/
theorem exec_nop (s : State) : exec .nop s = .next (endStep 1 s) := rfl

/-- `Halt` sets `Halted` before the end of step (R111). -/
theorem exec_halt (s : State) : exec .halt s = .next (endStep 1 { s with runState := .halted }) := rfl

/-- No step begins outside `Running`, whatever the budget (R95). -/
theorem stepAllowed_eq_false_of_runState_ne {s : State} (h : s.runState ≠ .running) : stepAllowed s = false := by
  simp [stepAllowed, h]

/-- Settles O21: the end of step keeps the run state, here `Running`, with everything else. -/
theorem nopHasNoEffect : Obligations.NopHasNoEffect := by
  refine ⟨⟨fun _ => rfl, rfl, rfl⟩, fun s hr => ⟨_, exec_nop s, ?_⟩⟩
  rw [← hr]
  exact leaves_endStep_runState s s.runState 1

/-- Settles O22: `Halted` allows no step, and that no other instruction reaches it is `eq_halt_of_exec_halted`. -/
theorem haltEndsTheRunHalted : Obligations.HaltEndsTheRunHalted := by
  refine ⟨⟨fun _ => rfl, rfl, rfl⟩, fun s _ => ?_, fun s t i hr hexec ht => ?_⟩
  · obtain ⟨hleaves, hdevices⟩ := leaves_endStep_runState s .halted 1
    exact ⟨_, exec_halt s, hleaves, hdevices, stepAllowed_eq_false_of_runState_ne (by simp)⟩
  · exact eq_halt_of_exec_halted (by simp [hr]) hexec ht

/-! ## The `Break` decodings -/

/-- The instructions dispatched to the `Break` handler are those with a decode cause (R104, R112). -/
theorem instrTag_eq_brk_iff (i : Instr) : instrTag i = .brk ↔ ∃ c, instrCause i = some c := by
  cases i <;> simp [instrTag, instrCause]

/-- The decodings with the `Break` tag are those with a decode cause (R112). -/
theorem decodedTag_eq_brk_iff (d : Decoded) : decodedTag d = .brk ↔ ∃ c, decodedCause d = some c := by
  cases d with
  | instr i => exact instrTag_eq_brk_iff i
  | pcOutOfRange | truncated => simp [decodedTag, decodedCause]

/-- An instruction with a decode cause is one cell and runs the `Break` handler with that cause (R112). -/
theorem exec_eq_runBreak {i : Instr} {c : BreakCause} (h : instrCause i = some c) :
    instrLen i = 1 ∧ ∀ s, exec i s = runBreak c s := by
  cases i <;> cases h <;> exact ⟨rfl, fun _ => rfl⟩

/-- A decoding with a decode cause has length 1 (R81, R83, R112). -/
theorem decodedLen_eq_one {d : Decoded} {c : BreakCause} (h : decodedCause d = some c) : decodedLen d = 1 := by
  cases d with
  | instr i => exact (exec_eq_runBreak h).1
  | pcOutOfRange | truncated => rfl

/-- From `Running` every decoding with a decode cause breaks with it; the out-of-range decoding has already broken when
its handler runs (R81, R112). -/
theorem execDecoded_break {s : State} {d : Decoded} {c : BreakCause} (hr : s.runState = .running)
    (h : decodedCause d = some c) :
    execDecoded d (afterDecode d s) = .next (endStep 1 (raiseBreak c s)) := by
  cases d with
  | instr i => exact ((exec_eq_runBreak h).2 s).trans (runBreak_running hr c)
  | pcOutOfRange =>
    cases h
    exact runBreak_broken (by simp [afterDecode]) .pcOutOfRange
  | truncated =>
    cases h
    exact runBreak_running hr .truncatedInstruction

/-- Settles O16: the four decodings with a decode cause end one way, and the explicit opcode is one of them. -/
theorem breakDecodingsEndTheRun : Obligations.BreakDecodingsEndTheRun := by
  refine ⟨⟨fun _ => rfl, rfl, rfl⟩, rfl, fun _ => rfl, rfl, rfl, decodedTag_eq_brk_iff, fun s d c hr hc => ?_,
    fun s hr => ?_⟩
  · exact ⟨decodedLen_eq_one hc, _, execDecoded_break hr hc, leaves_broken s c 1⟩
  · exact ⟨_, execDecoded_break (d := .instr .brk) hr rfl, leaves_broken s .explicitBreak 1⟩

end Sys2Proof.Machine
end

section
/-!
The stack instructions `Push` and `Drop`: one primitive each, followed by the end of step (42_stack.md R113, R114).
-/

namespace Sys2Proof.Machine

/-! ## Push -/

/-- `Push v` is the push of the immediate's word and the end of a two-cell step (R113). -/
theorem exec_push (imm : Int) (s : State) : exec (.push imm) s = finish 2 (push (u32 imm) s) := rfl

/-- Settles O23: `push_room` and `push_full` are the two cases of the handler, and a lone `Push` cell is the decoder's
truncated case. -/
theorem pushStoresTheImmediate : Obligations.PushStoresTheImmediate := by
  refine ⟨fun map hinj => decode_truncated (lookupOpcode_opcodeOf hinj .push) rfl, fun v hv =>
    ⟨⟨fun _ => rfl, rfl, rfl, rfl⟩, s32_u32 hv, fun s ⟨hr, hsp⟩ => ⟨fun hroom => ?_, fun hfull => ?_⟩⟩⟩
  · obtain ⟨u, hpush, hu⟩ := push_room (u32 v) (.refl hsp) hroom
    exact .of_onlyStack (exec_push v s) hr hpush hu
  · exact .of_onlyStack (exec_push v s) (push_full (u32 v) (.refl hsp) hfull) (.refl hsp)

/-! ## Drop -/

/-- `Drop` is a checked pop that forgets its word, and the end of step (R114). -/
theorem exec_drop (s : State) : exec .drop s = finish 1 (popThen s fun _ s1 => .next s1) := rfl

/-- `Pop` writes no entry of the stack array, also when it fails (R88). -/
theorem stackEntry_of_pop {s u : State} {v : Word} (h : pop s = .next (v, u)) (k : Nat) :
    stackEntry u k = stackEntry s k := by
  obtain ⟨-, -, rfl⟩ | ⟨-, -, rfl⟩ := pop_eq_next h <;> rfl

/-- `Drop` writes no entry of the stack array, from any state (R114). -/
theorem stackEntry_of_exec_drop {s t : State} (h : exec .drop s = .next t) (k : Nat) :
    stackEntry t k = stackEntry s k := by
  obtain ⟨u, hpopThen, rfl⟩ := finish_eq_next h
  obtain ⟨v, w, hpop, ⟨-, hw⟩ | ⟨-, rfl⟩⟩ := popThen_eq_next hpopThen
  · cases hw
    exact stackEntry_of_pop hpop k
  · exact stackEntry_of_pop hpop k

/-- Settles O24: `popThen_top` and `popThen_empty` are the two cases of the handler, and the array is as it was by
`stackEntry_of_exec_drop`. -/
theorem dropDiscardsTheTop : Obligations.DropDiscardsTheTop := by
  refine ⟨⟨fun _ => rfl, rfl, rfl⟩, fun _ _ => stackEntry_of_exec_drop, fun s ⟨hr, hsp⟩ =>
    ⟨fun xs x hlive => ?_, fun hlive => ?_⟩⟩
  · obtain ⟨u, hpop, hu⟩ := popThen_top (.of_live hsp hlive) hr fun _ s1 => .next s1
    exact .of_onlyStack (exec_drop s) hr hpop hu
  · have hempty := OnlyStack.of_live hsp hlive
    exact .of_onlyStack (exec_drop s) (popThen_empty hempty _) hempty

end Sys2Proof.Machine
end

section
/-!
The arithmetic instructions with one operand form and no case of their own: `Inc`, `Dec`, `Sub` and `SQRT`
(43_arithmetic.md R120, R121, R123, R126).
-/

namespace Sys2Proof.Machine

/-! ## Instructions of one operand form -/

section
variable {i : Instr} {s : State}

/-- With an entry to pop, a one-operand instruction replaces the top by its result: the push refills the slot just
freed (R87). -/
theorem completes_unary {f : Word → Word} {xs : List Word} {x : Word} (he : exec i s = finish 1 (unary f s))
    (hs : Ready s) (hlive : liveStack s = xs ++ [x]) : Completes i s (s.pc + 1) (xs ++ [f x]) := by
  obtain ⟨hr, hsp⟩ := hs
  obtain ⟨u, hunary, hu⟩ := unary_top (.of_live hsp hlive) hr f
  exact .of_onlyStack he hr hunary hu

/-- On an empty stack a one-operand instruction underflows (R88). -/
theorem breaks_unary {f : Word → Word} (he : exec i s = finish 1 (unary f s)) (hsp : SpInRange s)
    (hlive : liveStack s = []) : Breaks i s .stackUnderflow (s.pc + 1) [] :=
  have hempty := OnlyStack.of_live hsp hlive
  .of_onlyStack he (unary_empty hempty f) hempty

/-- With two entries to pop, a two-operand instruction replaces them by its result, the top being the first operand
(R12). -/
theorem completes_binary {f : Word → Word → Word} {xs : List Word} {x y : Word}
    (he : exec i s = finish 1 (binary f s)) (hs : Ready s) (hlive : liveStack s = xs ++ [x, y]) :
    Completes i s (s.pc + 1) (xs ++ [f y x]) := by
  obtain ⟨hr, hsp⟩ := hs
  obtain ⟨u, hbinary, hu⟩ := binary_top (.of_live hsp hlive) hr f
  exact .of_onlyStack he hr hbinary hu

/-- With fewer than two entries a two-operand instruction underflows, and a lone entry is gone (R88). -/
theorem breaks_binary {f : Word → Word → Word} (he : exec i s = finish 1 (binary f s)) (hs : Ready s)
    (hshort : (liveStack s).length < 2) : Breaks i s .stackUnderflow (s.pc + 1) [] := by
  obtain ⟨hr, hsp⟩ := hs
  obtain ⟨u, hbinary, hu⟩ := binary_short (.refl hsp) hr hshort f
  exact .of_onlyStack he hbinary hu

end

/-! ## Inc, Dec and Sub -/

/-- `Inc` is the one-operand form of `aluInc` (R120). -/
theorem exec_inc (s : State) : exec .inc s = finish 1 (unary aluInc s) := rfl

/-- `Dec` is the one-operand form of `aluDec` (R121). -/
theorem exec_dec (s : State) : exec .dec s = finish 1 (unary aluDec s) := rfl

/-- `Sub` is the two-operand form of `aluSub` (R123). -/
theorem exec_sub (s : State) : exec .sub s = finish 1 (binary aluSub s) := rfl

/-- Settles O30: `aluInc_eq` and `aluDec_eq` give the results of the one-operand form as narrowed integers. -/
theorem incAndDecStepByOne : Obligations.IncAndDecStepByOne := by
  refine ⟨⟨fun _ => rfl, rfl, rfl⟩, ⟨fun _ => rfl, rfl, rfl⟩, fun s hs => ⟨fun xs x hlive => ?_, fun hlive => ?_⟩⟩
  · rw [← aluInc_eq, ← aluDec_eq]
    exact ⟨completes_unary (exec_inc s) hs hlive, completes_unary (exec_dec s) hs hlive⟩
  · exact ⟨breaks_unary (exec_inc s) hs.2 hlive, breaks_unary (exec_dec s) hs.2 hlive⟩

/-- Settles O32: the two-operand form passes the top first, so by `aluSub_eq` the entry below is subtracted from it. -/
theorem subIsTopMinusSecond : Obligations.SubIsTopMinusSecond := by
  refine ⟨⟨fun _ => rfl, rfl, rfl⟩, fun s hs => ⟨fun xs x y hlive => ?_, breaks_binary (exec_sub s) hs⟩⟩
  rw [← aluSub_eq]
  exact completes_binary (exec_sub s) hs hlive

/-! ## SQRT -/

/-- `SQRT` is the one-operand form of `aluSqrt` (R126). -/
theorem exec_sqrt (s : State) : exec .sqrt s = finish 1 (unary aluSqrt s) := rfl

/-- The root of a word is the exact floor: sixteen settled bits reach every root, since a word is below 65536 squared
(R8). -/
theorem aluSqrt_exact (a : Word) :
    (aluSqrt a).toNat * (aluSqrt a).toNat ≤ a.toNat ∧
      a.toNat < ((aluSqrt a).toNat + 1) * ((aluSqrt a).toNat + 1) := by
  rw [aluSqrt_toNat]
  exact rootBits_spec a.toNat 16 0 (Nat.zero_le _) (by simpa using a.isLt)

/-- The root of a word has at most 16 bits. -/
theorem aluSqrt_le (a : Word) : (aluSqrt a).toNat ≤ 65535 := by
  rw [aluSqrt_toNat]
  exact Nat.le_of_lt_succ rootBits_lt

/-- Settles O35: the pushed word is `aluSqrt` of the top, which `aluSqrt_exact` and `aluSqrt_le` describe. -/
theorem sqrtIsTheExactFloor : Obligations.SqrtIsTheExactFloor := by
  refine ⟨⟨fun _ => rfl, rfl, rfl⟩, fun s hs => ⟨fun xs x hlive => ?_, breaks_unary (exec_sqrt s) hs.2⟩⟩
  obtain ⟨hle, hlt⟩ := aluSqrt_exact x
  exact ⟨aluSqrt x, hle, hlt, aluSqrt_le x, completes_unary (exec_sqrt s) hs hlive⟩

end Sys2Proof.Machine
end

section
/-!
The bitwise instructions `And`, `Or` and `Xor`: the two-operand form of an operation on each bit (44_bitwise.md R127,
R128, R129).
-/

namespace Sys2Proof.Machine

/-! ## The bits of the results -/

/-- Each bit of `aluAnd` is the conjunction of the operands' bits (R127). -/
theorem getLsbD_aluAnd (a b : Word) (k : Nat) : (aluAnd a b).getLsbD k = (a.getLsbD k && b.getLsbD k) :=
  BitVec.getLsbD_and

/-- Each bit of `aluOr` is the disjunction of the operands' bits (R128). -/
theorem getLsbD_aluOr (a b : Word) (k : Nat) : (aluOr a b).getLsbD k = (a.getLsbD k || b.getLsbD k) :=
  BitVec.getLsbD_or

/-- A bit of `aluXor` is set exactly where the operands' bits differ (R129). -/
theorem getLsbD_aluXor (a b : Word) (k : Nat) : (aluXor a b).getLsbD k = (a.getLsbD k != b.getLsbD k) := by
  rw [Bool.bne_eq_xor]
  exact BitVec.getLsbD_xor

/-! ## And, Or and Xor -/

/-- `And` is the two-operand form of `aluAnd` (R127). -/
theorem exec_and (s : State) : exec .and s = finish 1 (binary aluAnd s) := rfl

/-- `Or` is the two-operand form of `aluOr` (R128). -/
theorem exec_or (s : State) : exec .or s = finish 1 (binary aluOr s) := rfl

/-- `Xor` is the two-operand form of `aluXor` (R129). -/
theorem exec_xor (s : State) : exec .xor s = finish 1 (binary aluXor s) := rfl

/-- Settles O36: the two-operand form passes the top first, and each result is the operation bit by bit. -/
theorem andOrXorActBitwise : Obligations.AndOrXorActBitwise := by
  refine ⟨⟨fun _ => rfl, rfl, rfl⟩, ⟨fun _ => rfl, rfl, rfl⟩, ⟨fun _ => rfl, rfl, rfl⟩, fun s hs =>
    ⟨fun xs x y hlive => ?_, fun hshort => ?_⟩⟩
  · exact ⟨aluAnd y x, aluOr y x, aluXor y x,
      fun k _ => getLsbD_aluAnd y x k, fun k _ => getLsbD_aluOr y x k, fun k _ => getLsbD_aluXor y x k,
      completes_binary (exec_and s) hs hlive, completes_binary (exec_or s) hs hlive,
      completes_binary (exec_xor s) hs hlive⟩
  · exact ⟨breaks_binary (exec_and s) hs hshort, breaks_binary (exec_or s) hs hshort,
      breaks_binary (exec_xor s) hs hshort⟩

end Sys2Proof.Machine
end

section
/-!
The conditional jumps `JE` and `JNE`: a checked pop whose word decides whether the immediate is added to pc before the
end of step adds 2 (45_branch.md R132, R133).
-/

namespace Sys2Proof.Machine

/-! ## A taken jump before the end of step -/

/-- A taken jump and its end of step move pc and count the step, and nothing else (R93, R94). -/
theorem endStep_jumpBy (len : Nat) (imm : Int) (s : State) : endStep len (jumpBy imm s) =
    { s with pc := s.pc + u32 imm + BitVec.ofNat 32 len, steps := s.steps + 1 } := rfl

/-- The addition of a jump and the advance by two cells are one displacement, modulo 2^32 (R24, R94). -/
theorem add_u32_add_two (pc : Word) (imm : Int) : pc + u32 imm + 2 = u32 (pc.toNat + imm + 2) := by
  rw [u32_add, u32_add, u32_toNat]
  rfl

/-- A jump adds its displacement to what a two-cell handler leaves, and nothing else (R94). -/
theorem Leaves.jumpBy {s u : State} {live : List Word} {st : RunState} {c : BreakCause}
    (h : Leaves s (endStep 2 u) (s.pc + 2) live st c) (imm : Int) :
    Leaves s (endStep 2 (jumpBy imm u)) (u32 (s.pc.toNat + imm + 2)) live st c := by
  obtain ⟨hpc, hrest⟩ := h
  have hu : u.pc = s.pc := add_right_cancel hpc
  refine ⟨?_, hrest⟩
  rw [endStep_jumpBy, hu]
  exact add_u32_add_two s.pc imm

/-! ## The handler of the conditional jumps -/

/-- The handler `JE` and `JNE` share, before its end of step: `c` is the test of the popped word. -/
def condJump (c : Word → Bool) (imm : Int) (s : State) : Result State :=
  popThen s fun a s1 => .next (if c a then jumpBy imm s1 else s1)

/-- `JE` is the conditional jump that tests for zero (R132). -/
theorem exec_je (imm : Int) (s : State) : exec (.je imm) s = finish 2 (condJump condJE imm s) := rfl

/-- `JNE` is the conditional jump that tests for a non-zero word (R133). -/
theorem exec_jne (imm : Int) (s : State) : exec (.jne imm) s = finish 2 (condJump condJNE imm s) := rfl

/-- A conditional jump consumes the top, and its test of that word decides whether pc moves (R132, R133). -/
theorem condJump_top (c : Word → Bool) (imm : Int) {s : State} {xs : List Word} {x : Word} (hs : Ready s)
    (hlive : liveStack s = xs ++ [x]) :
    ∃ u, condJump c imm s = .next (if c x then jumpBy imm u else u) ∧ OnlyStack s u xs := by
  obtain ⟨hr, hsp⟩ := hs
  exact popThen_top (.of_live hsp hlive) hr fun a s1 => .next (if c a then jumpBy imm s1 else s1)

section
variable {i : Instr} {s : State} {c : Word → Bool} {imm : Int} {xs : List Word} {x : Word}

/-- A popped word that meets the test adds the immediate to pc (R94). -/
theorem completes_condJump_taken (he : exec i s = finish 2 (condJump c imm s)) (hs : Ready s)
    (hlive : liveStack s = xs ++ [x]) (hc : c x = true) : Completes i s (u32 (s.pc.toNat + imm + 2)) xs := by
  obtain ⟨u, hjump, hu⟩ := condJump_top c imm hs hlive
  obtain ⟨hleaves, hdevices⟩ := hu.leaves 2
  rw [hs.1] at hleaves
  refine ⟨endStep 2 (jumpBy imm u), ?_, hleaves.jumpBy imm, hdevices⟩
  rw [he, hjump, if_pos hc, finish_next]

/-- A popped word that fails the test is consumed, and pc only advances by the length (R93). -/
theorem completes_condJump_not_taken (he : exec i s = finish 2 (condJump c imm s)) (hs : Ready s)
    (hlive : liveStack s = xs ++ [x]) (hc : c x = false) : Completes i s (s.pc + 2) xs := by
  obtain ⟨u, hjump, hu⟩ := condJump_top c imm hs hlive
  rw [if_neg (by simp [hc])] at hjump
  exact .of_onlyStack he hs.1 hjump hu

/-- On an empty stack a conditional jump underflows before its test (R88, R91). -/
theorem breaks_condJump (he : exec i s = finish 2 (condJump c imm s)) (hsp : SpInRange s)
    (hlive : liveStack s = []) : Breaks i s .stackUnderflow (s.pc + 2) [] :=
  have hempty := OnlyStack.of_live hsp hlive
  .of_onlyStack he (popThen_empty hempty _) hempty

end

/-- Settles O39: the popped word 0 is the one `condJE` accepts. -/
theorem jeJumpsOnZero : Obligations.JeJumpsOnZero := by
  intro imm
  refine ⟨⟨fun _ => rfl, rfl, rfl, rfl⟩, fun s hs => ⟨fun xs hlive => ?_, fun xs x hx hlive => ?_, fun hlive => ?_⟩⟩
  · exact completes_condJump_taken (exec_je imm s) hs hlive (by decide)
  · exact completes_condJump_not_taken (exec_je imm s) hs hlive (decide_eq_false hx)
  · exact breaks_condJump (exec_je imm s) hs.2 hlive

/-- Settles O40: every popped word but 0 is one `condJNE` accepts. -/
theorem jneJumpsOnNonzero : Obligations.JneJumpsOnNonzero := by
  intro imm
  refine ⟨⟨fun _ => rfl, rfl, rfl, rfl⟩, fun s hs => ⟨fun xs x hx hlive => ?_, fun xs hlive => ?_, fun hlive => ?_⟩⟩
  · exact completes_condJump_taken (exec_jne imm s) hs hlive (decide_eq_true hx)
  · exact completes_condJump_not_taken (exec_jne imm s) hs hlive (by decide)
  · exact breaks_condJump (exec_jne imm s) hs.2 hlive

end Sys2Proof.Machine
end

section
/-!
The unconditional jump: its own step never breaks, a target outside the store breaks at the next fetch, and `Jump -2`
is a loop that only the budget ends, under either strategy (40_sequencer.md R96, R100, R101; 45_branch.md R134).
-/

namespace Sys2Proof.Machine

/-! ## Steps from what stands at pc -/

/-- The cells of a two-cell instruction at pc decode to it and change no state (R83). -/
theorem fetchDecode_of_holds_twoCells {s : State} {m : Mnemonic} {imm : Int} (hinj : s.cfg.opcodeMap.Injective)
    (htwo : oneCellInstr m = none) (himm : immInRange imm) (hholds : Holds s s.pc.toNat (twoCellInstr m imm)) :
    fetchDecode s = .next (.instr (twoCellInstr m imm), s) := by
  obtain ⟨-, -, -, -, hencode⟩ := twoCellInstr_spec htwo imm s.cfg.opcodeMap
  rw [Holds, hencode] at hholds
  obtain ⟨hsize, hcells⟩ := hholds
  have hopcode : progCell s s.pc.toNat = opcodeOf s.cfg.opcodeMap m := hcells 0 _ rfl
  have hnext : progCell s (s.pc.toNat + 1) = u32 imm := hcells 1 _ rfl
  have hfetch := fetchDecode_twoCells (s := s) (m := m) (by rw [hopcode, lookupOpcode_opcodeOf hinj]) htwo hsize
  rwa [hnext, s32_u32 himm] at hfetch

/-- A step at a pc outside the store breaks and consumes one cell (R81, R142). -/
theorem step_outOfRange {s : State} (ha : stepAllowed s = true) (hpc : s.cfg.programSize ≤ s.pc.toNat) :
    step s = .next (endStep 1 (raiseBreak .pcOutOfRange s)) := by
  obtain ⟨-, hr, -⟩ := (stepAllowed_iff s).1 ha
  rw [step_of_fetch ha (fetchDecode_of_cells (fetchCells_outOfRange hpc))]
  exact execDecoded_break (d := .pcOutOfRange) hr rfl

/-! ## Runs, one step at a time -/

/-- Where no step may begin, the central loop has ended (R96). -/
theorem runLoop_of_not_stepAllowed {s : State} (h : stepAllowed s = false) (fuel : Nat) :
    runLoop fuel s = some (.next s) := by
  cases fuel <;> simp [runLoop, h]

/-- The central loop runs a step and goes on from the state it left (R96). -/
theorem runLoop_succ_of_step {s t : State} (ha : stepAllowed s = true) (h : step s = .next t) (fuel : Nat) :
    runLoop (fuel + 1) s = runLoop fuel t := by
  have hone : oneStep s = .next t := by rwa [step, stepOrIdle, if_pos ha] at h
  simp [runLoop, ha, hone]

/-- Where no step may begin, `RunB` has ended before its first fetch (R101). -/
theorem runHandlers_of_not_stepAllowed {s : State} (h : stepAllowed s = false) (fuel : Nat) :
    runHandlers fuel s = some (.next s) := by
  simp [runHandlers, h]

/-- Where a step may begin, `RunB` passes control to the handler of what it decoded (R101). -/
theorem runHandlers_of_fetch {s t : State} {d : Decoded} (ha : stepAllowed s = true)
    (h : fetchDecode s = .next (d, t)) (fuel : Nat) : runHandlers fuel s = runChain fuel d t := by
  simp [runHandlers, ha, h]

/-- After a handler the chain is where `RunB` would begin: it checks that a step may begin and decodes (R101). -/
theorem runChain_succ_of_exec {d : Decoded} {s t : State} (h : execDecoded d s = .next t) (fuel : Nat) :
    runChain (fuel + 1) d s = runHandlers fuel t := by
  simp only [runChain, runHandlers, h]

/-- The two strategies run the same steps (R102). -/
theorem runLoop_eq_runHandlers (fuel : Nat) (s : State) : runLoop fuel s = runHandlers fuel s := by
  induction fuel generalizing s with
  | zero =>
    cases ha : stepAllowed s with
    | false => rw [runLoop_of_not_stepAllowed ha, runHandlers_of_not_stepAllowed ha]
    | true =>
      obtain ⟨d, t, hfetch⟩ := fetchDecodeIsTotal s
      rw [runHandlers_of_fetch ha hfetch]
      simp [runLoop, runChain, ha]
  | succ k ih =>
    cases ha : stepAllowed s with
    | false => rw [runLoop_of_not_stepAllowed ha, runHandlers_of_not_stepAllowed ha]
    | true =>
      obtain ⟨d, t, hfetch⟩ := fetchDecodeIsTotal s
      rw [runHandlers_of_fetch ha hfetch]
      cases hexec : execDecoded d t with
      | next u =>
        rw [runLoop_succ_of_step ha ((step_of_fetch ha hfetch).trans hexec), runChain_succ_of_exec hexec, ih]
      | fault | refused => simp [runLoop, runChain, ha, oneStep, hfetch, hexec]

/-- A run is the central loop's, whichever strategy the host chose (R102). -/
theorem run_eq_runLoop (fuel : Nat) (s : State) : run fuel s = runLoop fuel s := by
  unfold run
  split
  · rfl
  · exact (runLoop_eq_runHandlers fuel s).symm

/-! ## Jump -/

/-- `Jump` adds its immediate and ends a two-cell step (R134). -/
theorem exec_jump (imm : Int) (s : State) : exec (.jump imm) s = .next (endStep 2 (jumpBy imm s)) := rfl

/-- `Jump` raises nothing in its own step, wherever its target is (R134). -/
theorem completes_jump (imm : Int) {s : State} (hr : s.runState = .running) :
    Completes (.jump imm) s (u32 (s.pc.toNat + imm + 2)) (liveStack s) := by
  have ⟨hleaves, hdevices⟩ : Leaves s (endStep 2 s) (s.pc + 2) (liveStack s) .running s.cause ∧
      SameDevices s (endStep 2 s) := by
    rw [← hr]
    exact leaves_endStep_runState s s.runState 2
  exact ⟨_, exec_jump imm s, hleaves.jumpBy imm, hdevices⟩

/-! ## The self-loop -/

/-- `Jump -2` jumps to itself: its step does nothing but count (R134). -/
theorem exec_jump_neg_two (s : State) : exec (.jump (-2)) s = .next { s with steps := s.steps + 1 } := by
  have hcancel : u32 (-2) + BitVec.ofNat 32 2 = 0#32 := by decide
  rw [exec_jump, endStep_jumpBy, BitVec.add_assoc, hcancel, BitVec.add_zero]

/-- A step at a `Jump -2` does nothing but count (R134). -/
theorem step_selfLoop {s : State} (hinj : s.cfg.opcodeMap.Injective) (hholds : Holds s s.pc.toNat (.jump (-2)))
    (ha : stepAllowed s = true) : step s = .next { s with steps := s.steps + 1 } := by
  rw [step_of_fetch ha (fetchDecode_of_holds_twoCells (m := .jump) hinj rfl (by decide) hholds)]
  exact exec_jump_neg_two s

/-- A started run at a `Jump -2` uses up its budget, counts it, and changes nothing else (R97, R134). -/
theorem runLoop_selfLoop {s : State} (hinj : s.cfg.opcodeMap.Injective) (hholds : Holds s s.pc.toNat (.jump (-2)))
    (hstarted : s.started = true) (hr : s.runState = .running) {n : Nat}
    (hn : s.steps.toNat + n = s.stepBudget.toNat) :
    runLoop n s = some (.next { s with steps := s.stepBudget }) := by
  induction n generalizing s with
  | zero =>
    have hsteps : s.steps = s.stepBudget := BitVec.eq_of_toNat_eq hn
    have hended : stepAllowed s = false := by simp [stepAllowed, hsteps]
    have hs : { s with steps := s.stepBudget } = s := congrArg (fun n => { s with steps := n }) hsteps.symm
    rw [hs, runLoop_of_not_stepAllowed hended]
  | succ k ih =>
    have ha : stepAllowed s = true := (stepAllowed_iff s).2 ⟨hstarted, hr, by bv_omega⟩
    rw [runLoop_succ_of_step ha (step_selfLoop hinj hholds ha)]
    have hcount : (s.steps + 1).toNat + k = s.stepBudget.toNat := by bv_omega
    exact ih hinj hholds hstarted hr hcount

/-- Settles O41: `completes_jump` and `step_outOfRange` are the jump and the fetch after it, and `runLoop_selfLoop` is
the loop. -/
theorem jumpAddsTheImmediate : Obligations.JumpAddsTheImmediate := by
  refine ⟨fun imm => ⟨⟨fun _ => rfl, rfl, rfl, rfl⟩, fun s hr => ⟨completes_jump imm hr, fun t _ ha hpc => ?_⟩⟩,
    fun s hinv ha hholds => ?_⟩
  · exact ⟨_, step_outOfRange ha hpc, rfl, rfl, rfl⟩
  · obtain ⟨⟨-, -, -, -, hinj⟩, -⟩ := hinv
    obtain ⟨hstarted, hr, hlt⟩ := (stepAllowed_iff s).1 ha
    have hn : s.steps.toNat + (s.stepBudget.toNat - s.steps.toNat) = s.stepBudget.toNat := by bv_omega
    exact ⟨_, (run_eq_runLoop _ s).trans (runLoop_selfLoop hinj hholds hstarted hr hn), hr, rfl, rfl, rfl⟩

end Sys2Proof.Machine
end

section
/-!
The step of a two-cell opcode in the last cell of the store: decode gives the truncated `Break` decoding, whose length 1
takes pc to the store's end (60_exceptions.md R143).
-/

namespace Sys2Proof.Machine

/-- A step at a two-cell opcode in the last cell of the store breaks and consumes one cell (R83, R143). -/
theorem step_truncated {s : State} {m : Mnemonic} (ha : stepAllowed s = true) (hpc : s.pc.toNat < s.cfg.programSize)
    (hm : lookupOpcode s.cfg.opcodeMap (progCell s s.pc.toNat) = some m) (htwo : oneCellInstr m = none)
    (hend : s.cfg.programSize ≤ s.pc.toNat + 1) :
    step s = .next (endStep 1 (raiseBreak .truncatedInstruction s)) := by
  obtain ⟨-, hr, -⟩ := (stepAllowed_iff s).1 ha
  rw [step_of_fetch ha (fetchDecode_truncated hpc hm htwo hend)]
  exact execDecoded_break (d := .truncated) hr rfl

/-- From the last cell of an admitted store, one cell on is the store's end: pc does not wrap (R6, R24). -/
theorem toNat_pc_add_one_of_lastCell {s : State} (hsize : s.cfg.programSize ≤ 2 ^ 31 - 1)
    (hpc : s.pc.toNat < s.cfg.programSize) (hend : s.cfg.programSize ≤ s.pc.toNat + 1) :
    (s.pc + 1).toNat = s.cfg.programSize := by
  bv_omega

/-- Settles O14: an injective map recognizes the cell as `m`, `step_truncated` is the step, and the bound on
PROGRAM_SIZE keeps the advanced pc from wrapping. -/
theorem stepOfATruncatedInstruction : Obligations.StepOfATruncatedInstruction := by
  intro s m hcfg ha htwo hcell hpc hend
  obtain ⟨-, hsize, -, -, hinj⟩ := hcfg
  have hm : lookupOpcode s.cfg.opcodeMap (progCell s s.pc.toNat) = some m := by
    rw [hcell, lookupOpcode_opcodeOf hinj]
  obtain ⟨hleaves, hdevices⟩ := leaves_broken s .truncatedInstruction 1
  exact ⟨_, step_truncated ha hpc hm (oneCellInstr_eq_none.2 htwo) hend, hleaves, hdevices,
    toNat_pc_add_one_of_lastCell hsize hpc hend⟩

end Sys2Proof.Machine
end

section
/-!
The invariant of every run: each move of a handler keeps it, an instruction leaves the inputs and counts once, and so
every step and every host move keeps it; from a state that meets it a step always answers (10_state.md R20-R32,
40_sequencer.md R93, R97).
-/

namespace Sys2Proof.Machine

/-! ## The run inputs -/

/-- A move of sp, the stack, state and cause reaches no run input and no count (R20). -/
theorem StackMove.sameInputs {s u : State} (h : StackMove s u) : SameInputs s u ∧ u.steps = s.steps := by
  rw [h]
  exact ⟨⟨rfl, rfl, rfl, rfl, rfl, rfl⟩, rfl⟩

/-- No handler reaches a run input, and none counts the step itself (R20, R93). -/
theorem HandlerEffect.sameInputs {i : Instr} {s u : State} (h : HandlerEffect i s u) :
    SameInputs s u ∧ u.steps = s.steps := by
  cases i
  case halt =>
    cases h
    exact ⟨⟨rfl, rfl, rfl, rfl, rfl, rfl⟩, rfl⟩
  case print => exact h.1.sameInputs
  all_goals
    change StackMove _ u at h
    exact h.sameInputs

/-- Every instruction that answers leaves the run inputs as they were and counts once (R20, R29, R93). -/
theorem exec_sameInputs {i : Instr} {s t : State} (h : exec i s = .next t) :
    SameInputs s t ∧ t.steps = s.steps + 1 := by
  obtain ⟨u, hu, rfl⟩ := exec_effect h
  obtain ⟨hin, hsteps⟩ := hu.sameInputs
  exact ⟨hin, congrArg (· + 1) hsteps⟩

/-- Settles O46: a cell of the store reads by the loaded cells and the power-on, and both are inputs. -/
theorem instructionsKeepTheRunInputs : Obligations.InstructionsKeepTheRunInputs := by
  intro i s t h
  obtain ⟨⟨hcfg, hprog, hbudget, hstrategy, hstarted, hpower⟩, hsteps⟩ := exec_sameInputs h
  exact ⟨hcfg, hbudget, hstrategy, hstarted, hpower, fun a => by rw [progCell, progCell, hprog, hpower], hsteps⟩

/-- A step that began leaves the run inputs as they were and counts once, whatever it decoded (R93). -/
theorem step_sameInputs {s t : State} (ha : stepAllowed s = true) (h : step s = .next t) :
    SameInputs s t ∧ t.steps = s.steps + 1 := by
  obtain ⟨hidle, -⟩ | ⟨-, i, -, hexec⟩ | ⟨-, c, -, rfl⟩ := step_eq_next h
  · simp [ha] at hidle
  · exact exec_sameInputs hexec
  · exact ⟨⟨rfl, rfl, rfl, rfl, rfl, rfl⟩, rfl⟩

/-! ## The invariant, move by move -/

/-- An error keeps the invariant: it sets `Break` and a cause together (R32, R140). -/
theorem State.Inv.raiseBreak {s : State} (h : s.Inv) {c : BreakCause} (hc : c ≠ .noCause) :
    (raiseBreak c s).Inv := by
  obtain ⟨hcfg, hsp, hprog, hstack, hcells, hentries, hlive, hsteps, -⟩ := h
  exact ⟨hcfg, hsp, hprog, hstack, hcells, hentries, hlive, hsteps, by simp [hc]⟩

/-- A pop leaves sp in range, also when it fails (R25, R88). -/
theorem spInRange_of_pop {s u : State} {v : Word} (h : SpInRange s) (hpop : pop s = .next (v, u)) : SpInRange u := by
  obtain ⟨w, t, ht, hrange⟩ := pop_answers h
  cases hpop.symm.trans ht
  exact hrange

/-- A push leaves sp in range, also when it fails (R25, R87). -/
theorem spInRange_of_push {s u : State} {v : Word} (h : SpInRange s) (hpush : push v s = .next u) : SpInRange u := by
  obtain ⟨t, ht, hrange⟩ := push_answers v h
  cases hpush.symm.trans ht
  exact hrange

/-- A pop keeps the invariant: it uncovers no entry that the run did not write (R27, R88). -/
theorem State.Inv.pop {s u : State} {v : Word} (h : s.Inv) (hpop : pop s = .next (v, u)) : u.Inv := by
  obtain ⟨-, -, rfl⟩ | ⟨hpos, -, rfl⟩ := pop_eq_next hpop
  · exact h.raiseBreak (by decide)
  · obtain ⟨hcfg, hsp, hprog, hstack, hcells, hentries, hlive, hrest⟩ := h
    refine ⟨hcfg, spInRange_of_pop hsp hpop, hprog, hstack, hcells, hentries, fun k hk => hlive k ?_, hrest⟩
    rw [s32_sub_one (by omega)] at hk
    omega

/-- A push keeps the invariant: the entry it uncovers is the one it writes, below STACK_CAPACITY - 1 (R26, R87). -/
theorem State.Inv.push {s u : State} {v : Word} (h : s.Inv) (hpush : push v s = .next u) : u.Inv := by
  obtain ⟨-, rfl⟩ | ⟨hpos, hroom, rfl⟩ := push_eq_next hpush
  · exact h.raiseBreak (by decide)
  · obtain ⟨hcfg, hsp, hprog, hstack, hcells, hentries, hlive, hrest⟩ := h
    refine ⟨hcfg, spInRange_of_push hsp hpush, hprog, memWrite_wf hstack _ _, hcells, fun e he => ?_, fun k hk => ?_,
      hrest⟩
    · obtain rfl | he := mem_of_mem_memWrite he
      · simp only
        omega
      · exact hentries e he
    · rw [s32_add_one (by omega)] at hk
      rw [memRead_memWrite]
      split
      · rfl
      · exact hlive k (by omega)

/-- Taking a random word reaches nothing the invariant speaks of (R136). -/
theorem State.Inv.drawRand {s : State} (h : s.Inv) : (drawRand s).2.Inv := by
  unfold Machine.drawRand
  split <;> exact h

/-- Every move of a handler keeps the invariant. -/
theorem State.Inv.move {s t : State} (hm : Move s t) (h : s.Inv) : t.Inv := by
  cases hm with
  | popped hpop => exact h.pop hpop
  | pushed hpush => exact h.push hpush
  | raised _ c hc => exact h.raiseBreak hc
  | drewRand => exact h.drawRand
  | emitted | drewShift | jumped => exact h

/-- `Halt` keeps the invariant: no error has been raised (R32, R111). -/
theorem State.Inv.halted {s : State} (h : s.Inv) (hr : s.runState = .running) :
    State.Inv { s with runState := .halted } := by
  obtain ⟨hcfg, hsp, hprog, hstack, hcells, hentries, hlive, hsteps, hcause⟩ := h
  exact ⟨hcfg, hsp, hprog, hstack, hcells, hentries, hlive, hsteps, by simpa [hr] using hcause⟩

/-- The end of a step keeps the invariant when the budget was not used up (R93, R97). -/
theorem State.Inv.endStep {s : State} (h : s.Inv) (hlt : s.steps < s.stepBudget) (len : Nat) :
    (endStep len s).Inv := by
  obtain ⟨hcfg, hsp, hprog, hstack, hcells, hentries, hlive, -, hcause⟩ := h
  exact ⟨hcfg, hsp, hprog, hstack, hcells, hentries, hlive, by simp only [endStep_steps, endStep_stepBudget]; bv_omega,
    hcause⟩

/-- An instruction that runs below the budget keeps the invariant. -/
theorem State.Inv.exec {i : Instr} {s t : State} (h : s.Inv) (hr : s.runState = .running)
    (hlt : s.steps < s.stepBudget) (hexec : exec i s = .next t) : t.Inv := by
  by_cases hi : i = .halt
  · subst hi
    cases hexec
    exact (h.halted hr).endStep hlt 1
  · obtain ⟨u, hmoves, rfl⟩ := exec_moves hi hexec
    obtain ⟨⟨-, -, hbudget, -⟩, hsteps⟩ := exec_sameInputs hexec
    have hu : u.steps = s.steps := add_right_cancel hsteps
    refine (hmoves.keeps (fun _ _ => State.Inv.move) h).endStep ?_ _
    rwa [hu, show u.stepBudget = s.stepBudget from hbudget]

/-- Settles O5: of the cases of a step, the instruction is `State.Inv.exec` and a `Break` decoding is an error and an
end of step. -/
theorem stepKeepsTheInvariant : Obligations.StepKeepsTheInvariant := by
  intro s t h hstep
  obtain ⟨-, rfl⟩ | ⟨ha, i, -, hexec⟩ | ⟨ha, c, hc, rfl⟩ := step_eq_next hstep
  · exact h
  · obtain ⟨-, hr, hlt⟩ := (stepAllowed_iff s).1 ha
    exact h.exec hr hlt hexec
  · obtain ⟨-, -, hlt⟩ := (stepAllowed_iff s).1 ha
    exact (h.raiseBreak hc).endStep hlt 1

/-! ## The host's moves -/

/-- Loading a cell of the store keeps the invariant: the store stays in canonical form and below PROGRAM_SIZE (R39). -/
theorem State.Inv.hostLoad {s : State} (h : s.Inv) (a v : Word) : (hostLoad a v s).Inv := by
  unfold Machine.hostLoad
  split
  · exact h
  split
  · obtain ⟨hcfg, hsp, hprog, hstack, hcells, hrest⟩ := h
    refine ⟨hcfg, hsp, memWrite_wf hprog _ _, hstack, fun e he => ?_, hrest⟩
    obtain rfl | he := mem_of_mem_memWrite he
    · assumption
    · exact hcells e he
  · exact h

/-- The run-start state over any store and parameters that meet the invariant meets it: the stack is empty, no step is
counted and there is no cause (R160). -/
theorem State.Inv.runStart {s : State} (h : s.Inv) (b : Count) (d : Strategy) : (runStart b d s).Inv := by
  obtain ⟨hcfg, ⟨hlo, hhi, hcap⟩, hprog, -, hcells, -⟩ := h
  have hsp : SpInRange (Machine.runStart b d s) := by
    simp only [SpInRange, runStart_sp, runStart_cfg, s32_neg_one]
    omega
  exact ⟨hcfg, hsp, hprog, .nil, hcells, by simp, fun k hk => absurd hk (Nat.not_lt_zero k), BitVec.le_def.2 (Nat.zero_le _), by simp⟩

/-- Settles O6: a supplied random word is nothing the invariant speaks of, and a start that answers is `runStart`. -/
theorem hostMovesKeepTheInvariant : Obligations.HostMovesKeepTheInvariant := by
  refine ⟨fun s a v h => h.hostLoad a v, fun s v h => h, fun s b d t h hstart => ?_⟩
  unfold hostStart at hstart
  split at hstart
  · cases hstart
  · cases hstart
    exact h.runStart b d

/-! ## Every step answers -/

/-- Decode reaches neither sp nor the parameters (R85). -/
theorem spInRange_afterDecode {s : State} (h : SpInRange s) (d : Decoded) : SpInRange (afterDecode d s) := by
  cases d <;> exact h

/-- With sp in range the handler of every decoding answers (R79, R145). -/
theorem execDecoded_answers {s : State} (h : SpInRange s) (d : Decoded) : Answers (execDecoded d s) := by
  cases d with
  | instr i => exact exec_answers i h
  | pcOutOfRange | truncated => exact ⟨_, rfl⟩

/-- Settles O7: fetch reads inside the store (`exists_fetchCells`), and with sp in range every handler answers. -/
theorem stepNeverReachesOutsideTheArrays : Obligations.StepNeverReachesOutsideTheArrays := by
  intro s h
  obtain ⟨-, hsp, -⟩ := h
  cases ha : stepAllowed s with
  | false => exact ⟨s, step_idle ha⟩
  | true =>
    obtain ⟨cells, hcells⟩ := exists_fetchCells s
    rw [SafeStep, step_of_fetch ha (fetchDecode_of_cells hcells)]
    exact execDecoded_answers (spInRange_afterDecode hsp _) _

end Sys2Proof.Machine
end

section
/-!
The encoding, both ways: under an injective map an instruction's cells decode to it, what decodes begins with its
instruction's cells, and a step runs the instruction whose cells stand at pc (30_encoding.md R65-R72, R78, R79).
-/

namespace Sys2Proof

/-- Every instruction is an unrecognized cell, the one-cell form of its tag, or the two-cell form of its tag with an
immediate (R64, R71). -/
theorem instr_forms (i : Instr) :
    (∃ w, i = .unrecognized w) ∨ oneCellInstr (instrTag i) = some i ∨
      (oneCellInstr (instrTag i) = none ∧ ∃ imm, i = twoCellInstr (instrTag i) imm) := by
  cases i
  case unrecognized w => exact .inl ⟨w, rfl⟩
  case push imm | je imm | jne imm | jump imm => exact .inr (.inr ⟨rfl, imm, rfl⟩)
  all_goals exact .inr (.inl rfl)

/-- An unrecognized cell is well-formed exactly when the lookup fails on it (R71). -/
theorem wellFormed_unrecognized {map : OpcodeMap} {w : Word} :
    (Instr.unrecognized w).wellFormed map = true ↔ lookupOpcode map w = none := by
  simp [Instr.wellFormed]

/-- The two-cell form of a mnemonic is well-formed exactly when its immediate is an s32 (R67). -/
theorem wellFormed_twoCellInstr {map : OpcodeMap} {m : Mnemonic} (h : oneCellInstr m = none) {imm : Int} :
    (twoCellInstr m imm).wellFormed map = true ↔ immInRange imm := by
  obtain ⟨-, -, -, hwf, -⟩ := twoCellInstr_spec h imm map
  rw [hwf, decide_eq_true_iff]

/-- Settles O53: an injective map finds the tag by its opcode value, and an s32 survives its word. -/
theorem decodeOfEncodeIsTheInstruction : Obligations.DecodeOfEncodeIsTheInstruction := by
  intro map i rest hinj hwf
  have hlookup := lookupOpcode_opcodeOf hinj (instrTag i)
  obtain ⟨w, rfl⟩ | hone | ⟨htwo, imm, hi⟩ := instr_forms i
  · exact decode_unrecognized (wellFormed_unrecognized.1 hwf) rest
  · obtain ⟨-, -, -, -, hencode⟩ := oneCellInstr_spec hone map
    rw [hencode]
    exact decode_oneCell hlookup hone rest
  · obtain ⟨-, -, -, -, hencode⟩ := twoCellInstr_spec htwo imm map
    rw [hi, wellFormed_twoCellInstr htwo] at hwf
    have hdecode := decode_twoCells hlookup htwo (u32 imm) rest
    rw [s32_u32 hwf] at hdecode
    rw [hi, hencode]
    exact hdecode

/-- Settles O54: the lookup answers a mnemonic whose value the whole cell is, and a word survives its signed
reading. -/
theorem decodedCellsAreTheEncoding : Obligations.DecodedCellsAreTheEncoding := by
  intro map cells i hdecode
  obtain _ | ⟨w, rest⟩ := cells
  · cases hdecode
  cases hm : lookupOpcode map w with
  | none =>
    rw [decode_unrecognized hm] at hdecode
    cases hdecode
    exact ⟨wellFormed_unrecognized.2 hm, rest, rfl⟩
  | some m =>
    have hw := opcodeOf_of_lookupOpcode hm
    cases hi : oneCellInstr m with
    | some j =>
      rw [decode_oneCell hm hi] at hdecode
      cases hdecode
      obtain ⟨-, -, -, hwf, hencode⟩ := oneCellInstr_spec hi map
      exact ⟨hwf, rest, by rw [hencode, hw]; rfl⟩
    | none =>
      obtain _ | ⟨v, rest⟩ := rest
      · rw [decode_truncated hm hi] at hdecode
        cases hdecode
      · rw [decode_twoCells hm hi] at hdecode
        cases hdecode
        obtain ⟨-, -, -, -, hencode⟩ := twoCellInstr_spec hi (s32 v) map
        exact ⟨(wellFormed_twoCellInstr hi).2 (immInRange_s32 v), rest, by rw [hencode, hw, u32_s32]; rfl⟩

namespace Machine

/-- The cells of a well-formed instruction at pc decode to it and change no state (R80). -/
theorem fetchDecode_of_holds {s : State} {i : Instr} (hinj : s.cfg.opcodeMap.Injective)
    (hwf : i.wellFormed s.cfg.opcodeMap = true) (hholds : Holds s s.pc.toNat i) :
    fetchDecode s = .next (.instr i, s) := by
  obtain ⟨w, rfl⟩ | hone | ⟨htwo, imm, hi⟩ := instr_forms i
  · obtain ⟨hsize, hcells⟩ := hholds
    have hcell : progCell s s.pc.toNat = w := hcells 0 w rfl
    have hnone := lookupOpcode_eq_none.1 (wellFormed_unrecognized.1 hwf)
    rw [← hcell] at hnone
    rw [fetchDecode_unrecognized (Nat.lt_of_succ_le hsize) hnone, hcell]
  · obtain ⟨-, -, -, -, hencode⟩ := oneCellInstr_spec hone s.cfg.opcodeMap
    rw [Holds, hencode] at hholds
    obtain ⟨hsize, hcells⟩ := hholds
    have hcell : progCell s s.pc.toNat = opcodeOf s.cfg.opcodeMap (instrTag i) := hcells 0 _ rfl
    exact fetchDecode_oneCell (Nat.lt_of_succ_le hsize) (by rw [hcell, lookupOpcode_opcodeOf hinj]) hone
  · rw [hi] at hwf hholds ⊢
    exact fetchDecode_of_holds_twoCells hinj htwo ((wellFormed_twoCellInstr htwo).1 hwf) hholds

/-- Settles O12: the step executes what `fetchDecode_of_holds` gives. -/
theorem stepRunsTheInstructionAtPc : Obligations.StepRunsTheInstructionAtPc := by
  intro s i hinj hwf ha hholds
  exact step_of_fetch ha (fetchDecode_of_holds hinj hwf hholds)

end Machine
end Sys2Proof
end

section
/-!
The stack instructions that pop and push back: `Dup`, `Swap`, `Over`, `Rot` and `Pick`, and the primitive `PickAt`
(40_sequencer.md R89; 42_stack.md R115-R119).
-/

namespace Sys2Proof.Machine

/-! ## PickAt -/

/-- A read inside the array gives the entry (R26). -/
theorem stackRead_of_stackIndexOk {s : State} {i : Int} (h : stackIndexOk s i) :
    stackRead s i = .next (stackEntry s i.toNat) := if_pos h

/-- Settles O20: a depth at most sp names an entry between 0 and sp, which is live and inside the array. -/
theorem pickAtPrimitive : Obligations.PickAtPrimitive := by
  intro s n ⟨hlo, hhi, hcap⟩
  refine ⟨fun hdeep => if_pos (by omega), fun hlive => ⟨?_, ?_⟩⟩
  · rw [pickAt, if_neg (by omega), stackRead_of_stackIndexOk ⟨by omega, by omega⟩, andThen_next]
  · rw [liveStack_getElem?, if_pos (by omega)]

/-! ## Dup, Swap, Over, Rot and Pick -/

/-- `Dup` pops the top and pushes it twice (R115). -/
theorem exec_dup (s : State) :
    exec .dup s = finish 1 (popThen s fun a s1 => pushThen a s1 fun s2 => push a s2) := rfl

/-- `Swap` pops two and pushes them back, the old top first (R116). -/
theorem exec_swap (s : State) :
    exec .swap s = finish 1 (popTwo s fun a b s2 => pushThen a s2 fun s3 => push b s3) := rfl

/-- `Over` pops two and pushes the lower one, the old top, and the lower one again (R117). -/
theorem exec_ovr (s : State) : exec .ovr s = finish 1 (popTwo s fun a b s2 =>
    pushThen b s2 fun s3 => pushThen a s3 fun s4 => push b s4) := rfl

/-- `Rot` pops three and pushes them back, the old top first (R118). -/
theorem exec_rot (s : State) : exec .rot s = finish 1 (popTwo s fun a b s2 => popThen s2 fun c s3 =>
    pushThen a s3 fun s4 => pushThen c s4 fun s5 => push b s5) := rfl

/-- `Pick` pops a depth and pushes the entry at it (R119). -/
theorem exec_pick (s : State) :
    exec .pick s = finish 1 (popThen s fun n s1 => pickThen n s1 fun v s2 => push v s2) := rfl

/-- Settles O25: the first push refills the slot just freed, and the second finds room or a full stack. -/
theorem dupDoublesTheTop : Obligations.DupDoublesTheTop := by
  refine ⟨⟨fun _ => rfl, rfl, rfl⟩, fun s ⟨hr, hsp⟩ => ⟨fun xs x hlive => ?_, fun hlive => ?_⟩⟩
  · obtain ⟨u, hpop, hu⟩ := popThen_top (.of_live hsp hlive) hr fun a s1 => pushThen a s1 fun s2 => push a s2
    have hlen := (OnlyStack.of_live hsp hlive).length_le
    rw [List.length_append, List.length_singleton] at hlen
    obtain ⟨w, hpush, hw⟩ := pushThen_room x hu hr hlen fun s2 => push x s2
    refine ⟨fun hroom => ?_, fun hfull => ?_⟩
    · obtain ⟨z, hlast, hz⟩ := push_room x hw (by simpa using hroom)
      rw [List.append_assoc] at hz
      exact .of_onlyStack (exec_dup s) hr (hpop.trans (hpush.trans hlast)) hz
    · have hlast := push_full x hw (by simpa using hfull)
      exact .of_onlyStack (exec_dup s) (hpop.trans (hpush.trans hlast)) hw
  · have hempty := OnlyStack.of_live hsp hlive
    exact .of_onlyStack (exec_dup s) (popThen_empty hempty _) hempty

/-- Two checked pushes where there is room for both. -/
theorem pushThen_pushThen_room {s t : State} {xs : List Word} (a b : Word) (h : OnlyStack s t xs)
    (hr : s.runState = .running) (hroom : xs.length + 2 < s.cfg.stackCapacity) (k : State → Result State) :
    ∃ u, (pushThen a t fun s1 => pushThen b s1 k) = k u ∧ OnlyStack s u (xs ++ [a, b]) := by
  obtain ⟨u, hfirst, hu⟩ := pushThen_room a h hr (by omega) fun s1 => pushThen b s1 k
  obtain ⟨w, hsecond, hw⟩ := pushThen_room b hu hr (by simpa using hroom) k
  exact ⟨w, hfirst.trans hsecond, by simpa using hw⟩

/-- Settles O26: the pushes refill the two slots just freed. -/
theorem swapExchangesTheTopTwo : Obligations.SwapExchangesTheTopTwo := by
  refine ⟨⟨fun _ => rfl, rfl, rfl⟩, fun s ⟨hr, hsp⟩ => ⟨fun xs x y hlive => ?_, fun hshort => ?_⟩⟩
  · have hlen := (OnlyStack.of_live hsp hlive).length_le
    simp only [List.length_append, List.length_cons, List.length_nil] at hlen
    obtain ⟨u, hpop, hu⟩ := popTwo_top (.of_live hsp hlive) hr fun a b s2 => pushThen a s2 fun s3 => push b s3
    obtain ⟨w, hfirst, hw⟩ := pushThen_room y hu hr (by omega) fun s3 => push x s3
    obtain ⟨z, hsecond, hz⟩ := push_room x hw (by simpa using hlen)
    rw [List.append_assoc] at hz
    exact .of_onlyStack (exec_swap s) hr (hpop.trans (hfirst.trans hsecond)) hz
  · obtain ⟨u, hpop, hu⟩ := popTwo_short (.refl hsp) hr hshort _
    exact .of_onlyStack (exec_swap s) hpop hu

/-- Settles O27: two pushes refill the slots just freed, and the third finds room or a full stack. -/
theorem overCopiesTheSecond : Obligations.OverCopiesTheSecond := by
  refine ⟨⟨fun _ => rfl, rfl, rfl⟩, fun s ⟨hr, hsp⟩ => ⟨fun xs x y hlive => ?_, fun hshort => ?_⟩⟩
  · have hlen := (OnlyStack.of_live hsp hlive).length_le
    rw [List.length_append] at hlen
    obtain ⟨u, hpop, hu⟩ := popTwo_top (.of_live hsp hlive) hr fun a b s2 =>
      pushThen b s2 fun s3 => pushThen a s3 fun s4 => push b s4
    obtain ⟨w, hpush, hw⟩ := pushThen_pushThen_room x y hu hr hlen fun s4 => push x s4
    refine ⟨fun hroom => ?_, fun hfull => ?_⟩
    · obtain ⟨z, hlast, hz⟩ := push_room x hw (by simpa using hroom)
      rw [List.append_assoc] at hz
      exact .of_onlyStack (exec_ovr s) hr (hpop.trans (hpush.trans hlast)) hz
    · have hlast := push_full x hw (by simpa using hfull)
      exact .of_onlyStack (exec_ovr s) (hpop.trans (hpush.trans hlast)) hw
  · obtain ⟨u, hpop, hu⟩ := popTwo_short (.refl hsp) hr hshort _
    exact .of_onlyStack (exec_ovr s) hpop hu

/-- Three checked pops of three entries. -/
theorem popThree_top {s t : State} {xs : List Word} {x y z : Word} (h : OnlyStack s t (xs ++ [x, y, z]))
    (hr : s.runState = .running) (k : Word → Word → Word → State → Result State) :
    ∃ u, (popTwo t fun a b s2 => popThen s2 fun c s3 => k a b c s3) = k z y x u ∧ OnlyStack s u xs := by
  obtain ⟨u, htwo, hu⟩ := popTwo_top (xs := xs ++ [x]) (x := y) (y := z) (by simpa using h) hr
    fun a b s2 => popThen s2 fun c s3 => k a b c s3
  obtain ⟨w, hlast, hw⟩ := popThen_top hu hr fun c s3 => k z y c s3
  exact ⟨w, htwo.trans hlast, hw⟩

/-- Three checked pops of fewer than three entries underflow, and the stack ends empty (R88). -/
theorem popThree_short {s t : State} {xs : List Word} (h : OnlyStack s t xs) (hr : s.runState = .running)
    (hlen : xs.length < 3) (k : Word → Word → Word → State → Result State) :
    ∃ u, (popTwo t fun a b s2 => popThen s2 fun c s3 => k a b c s3) = .next (raiseBreak .stackUnderflow u) ∧
      OnlyStack s u [] := by
  by_cases htwo : xs.length < 2
  · exact popTwo_short h hr htwo _
  · obtain ⟨x, y, rfl⟩ := List.length_eq_two.1 (show xs.length = 2 by omega)
    obtain ⟨u, hpop, hu⟩ := popTwo_top (xs := []) h hr fun a b s2 => popThen s2 fun c s3 => k a b c s3
    exact ⟨u, hpop.trans (popThen_empty hu _), hu⟩

/-- Settles O28: the pushes refill the three slots just freed. -/
theorem rotMovesTheTopToThird : Obligations.RotMovesTheTopToThird := by
  refine ⟨⟨fun _ => rfl, rfl, rfl⟩, fun s ⟨hr, hsp⟩ => ⟨fun xs x y z hlive => ?_, fun hshort => ?_⟩⟩
  · have hlen := (OnlyStack.of_live hsp hlive).length_le
    simp only [List.length_append, List.length_cons, List.length_nil] at hlen
    obtain ⟨u, hpop, hu⟩ := popThree_top (.of_live hsp hlive) hr fun a b c s3 =>
      pushThen a s3 fun s4 => pushThen c s4 fun s5 => push b s5
    obtain ⟨v, htwo, hv⟩ := pushThen_pushThen_room z x hu hr (by omega) fun s5 => push y s5
    obtain ⟨w, hlast, hw⟩ := push_room y hv (by simpa using hlen)
    rw [List.append_assoc] at hw
    exact .of_onlyStack (exec_rot s) hr (hpop.trans (htwo.trans hlast)) hw
  · obtain ⟨u, hpop, hu⟩ := popThree_short (.refl hsp) hr hshort fun a b c s3 =>
      pushThen a s3 fun s4 => pushThen c s4 fun s5 => push b s5
    exact .of_onlyStack (exec_rot s) hpop hu

/-- Settles O29: once the depth is popped, `pickThen_live` and `pickThen_deep` are the two cases, and the push refills
the slot just freed. -/
theorem pickCopiesTheEntryAtDepth : Obligations.PickCopiesTheEntryAtDepth := by
  refine ⟨⟨fun _ => rfl, rfl, rfl⟩, fun s ⟨hr, hsp⟩ =>
    ⟨fun xs v ys n hlive hn => ?_, fun xs n hlive hn => ?_, fun hlive => ?_⟩⟩
  · have hlen := (OnlyStack.of_live hsp hlive).length_le
    rw [List.length_append, List.length_singleton] at hlen
    obtain ⟨u, hpop, hu⟩ := popThen_top (.of_live hsp hlive) hr fun n s1 => pickThen n s1 fun v s2 => push v s2
    have hpick := pickThen_live hu hr hn fun v s2 => push v s2
    obtain ⟨w, hpush, hw⟩ := push_room v hu hlen
    exact .of_onlyStack (exec_pick s) hr (hpop.trans (hpick.trans hpush)) hw
  · obtain ⟨u, hpop, hu⟩ := popThen_top (.of_live hsp hlive) hr fun n s1 => pickThen n s1 fun v s2 => push v s2
    exact .of_onlyStack (exec_pick s) (hpop.trans (pickThen_deep hu hn _)) hu
  · have hempty := OnlyStack.of_live hsp hlive
    exact .of_onlyStack (exec_pick s) (popThen_empty hempty _) hempty

end Sys2Proof.Machine
end

section
/-!
The remaining operations on the stack's words: `Add`, `Mul` and `Mod`, and the two shifts (43_arithmetic.md R122, R124,
R125; 44_bitwise.md R130, R131).
-/

namespace Sys2Proof.Machine

/-! ## Add, Mul and Mod -/

/-- `Add` is the two-operand form of `aluAdd` (R122). -/
theorem exec_add (s : State) : exec .add s = finish 1 (binary aluAdd s) := rfl

/-- `Mul` is the two-operand form of `aluMul` (R124). -/
theorem exec_mul (s : State) : exec .mul s = finish 1 (binary aluMul s) := rfl

/-- `Mod` pops two and breaks on a zero divisor before its push (R125, R147). -/
theorem exec_mod (s : State) : exec .mod s = finish 1 (popTwo s fun a b s2 =>
    if b = 0 then .next (raiseBreak .divisionByZero s2) else push (aluMod a b) s2) := rfl

/-- Settles O31: `aluAdd_eq` gives the result of the two-operand form as a narrowed integer. -/
theorem addIsTheSumModulo : Obligations.AddIsTheSumModulo := by
  refine ⟨⟨fun _ => rfl, rfl, rfl⟩, fun s hs => ⟨fun xs x y hlive => ?_, breaks_binary (exec_add s) hs⟩⟩
  rw [← aluAdd_eq]
  exact completes_binary (exec_add s) hs hlive

/-- Settles O33: `aluMul_eq` gives the result of the two-operand form as a narrowed integer. -/
theorem mulIsTheLowHalfOfTheProduct : Obligations.MulIsTheLowHalfOfTheProduct := by
  refine ⟨⟨fun _ => rfl, rfl, rfl⟩, fun s hs => ⟨fun xs x y hlive => ?_, breaks_binary (exec_mul s) hs⟩⟩
  rw [← aluMul_eq]
  exact completes_binary (exec_mul s) hs hlive

/-- Settles O34: both operands are gone when the divisor is tested; the push refills one of their slots. -/
theorem modIsTopModuloSecond : Obligations.ModIsTopModuloSecond := by
  refine ⟨⟨fun _ => rfl, rfl, rfl⟩, fun s ⟨hr, hsp⟩ => ⟨fun xs x y hlive => ?_, fun hshort => ?_⟩⟩
  · obtain ⟨u, hpop, hu⟩ := popTwo_top (.of_live hsp hlive) hr fun a b s2 =>
      if b = 0 then .next (raiseBreak .divisionByZero s2) else push (aluMod a b) s2
    refine ⟨fun hx => ?_, fun hx => ?_⟩
    · have hlen := (OnlyStack.of_live hsp hlive).length_le
      simp only [List.length_append, List.length_cons, List.length_nil] at hlen
      obtain ⟨w, hpush, hw⟩ := push_room (aluMod y x) hu (by omega)
      rw [if_neg hx] at hpop
      rw [← aluMod_eq]
      exact .of_onlyStack (exec_mod s) hr (hpop.trans hpush) hw
    · rw [if_pos hx] at hpop
      exact .of_onlyStack (exec_mod s) hpop hu
  · obtain ⟨u, hpop, hu⟩ := popTwo_short (.refl hsp) hr hshort _
    exact .of_onlyStack (exec_mod s) hpop hu

/-! ## SHL and SHR -/

/-- `SHL` is the shift of `aluShl` (R130). -/
theorem exec_shl (s : State) : exec .shl s = finish 1 (shift aluShl s) := rfl

/-- `SHR` is the shift of `aluShr` (R131). -/
theorem exec_shr (s : State) : exec .shr s = finish 1 (shift aluShr s) := rfl

section
variable {i : Instr} {s : State} {f : Word → Word → Word} {xs : List Word} {x y : Word}

/-- A shift by less than 32 replaces its operands by its result (R130, R131). -/
theorem completes_shift (he : exec i s = finish 1 (shift f s)) (hs : Ready s) (hlive : liveStack s = xs ++ [x, y])
    (hx : x.toNat < 32) : Completes i s (s.pc + 1) (xs ++ [f y x]) := by
  obtain ⟨hr, hsp⟩ := hs
  obtain ⟨u, hshift, hu⟩ := shift_small (.of_live hsp hlive) hr hx f
  exact .of_onlyStack he hr hshift hu

/-- A shift by 32 or more leaves the draw in place of its operands, and counts it (R6, R130, R131). -/
theorem leaves_shift_large (he : exec i s = finish 1 (shift f s)) (hs : Ready s)
    (hlive : liveStack s = xs ++ [x, y]) (hx : 32 ≤ x.toNat) :
    ∃ t, exec i s = .next t ∧ Leaves s t (s.pc + 1) (xs ++ [Config.shiftLarge s.draws]) .running s.cause ∧
      t.out = s.out ∧ t.randData = s.randData ∧ t.draws = s.draws + 1 := by
  obtain ⟨hr, hsp⟩ := hs
  obtain ⟨u, hshift, hu⟩ := shift_large (.of_live hsp hlive) hr hx f
  obtain ⟨hleaves, hdevices⟩ := hu.leaves 1
  rw [show ({ s with draws := s.draws + 1 } : State).runState = .running from hr] at hleaves
  exact ⟨endStep 1 u, by rw [he, hshift, finish_next], hleaves, hdevices⟩

/-- A shift of fewer than two entries underflows (R88). -/
theorem breaks_shift (he : exec i s = finish 1 (shift f s)) (hs : Ready s) (hshort : (liveStack s).length < 2) :
    Breaks i s .stackUnderflow (s.pc + 1) [] := by
  obtain ⟨hr, hsp⟩ := hs
  obtain ⟨u, hshift, hu⟩ := shift_short (.refl hsp) hr hshort f
  exact .of_onlyStack he hshift hu

end

/-- Settles O37: `aluShl_eq` gives the result below 32 as a narrowed integer. -/
theorem shlShiftsTheTopLeft : Obligations.ShlShiftsTheTopLeft := by
  refine ⟨⟨fun _ => rfl, rfl, rfl⟩, fun s hs => ⟨fun xs x y hlive => ?_, breaks_shift (exec_shl s) hs⟩⟩
  rw [← aluShl_eq]
  exact ⟨completes_shift (exec_shl s) hs hlive, leaves_shift_large (exec_shl s) hs hlive⟩

/-- Settles O38: `aluShr_eq` gives the result below 32 as a narrowed integer. -/
theorem shrShiftsTheTopRightLogically : Obligations.ShrShiftsTheTopRightLogically := by
  refine ⟨⟨fun _ => rfl, rfl, rfl⟩, fun s hs => ⟨fun xs x y hlive => ?_, breaks_shift (exec_shr s) hs⟩⟩
  rw [← aluShr_eq]
  exact ⟨completes_shift (exec_shr s) hs hlive, leaves_shift_large (exec_shr s) hs hlive⟩

end Sys2Proof.Machine
end

section
/-!
The two instructions that reach a device: `Print` appends an event, and `Rand` takes its draw before the push that may
fail (46_io.md R135, R136).
-/

namespace Sys2Proof.Machine

/-! ## Print -/

/-- `Print` is a checked pop whose word is emitted (R135). -/
theorem exec_print (s : State) : exec .print s = finish 1 (popThen s fun a s1 => .next (emit a s1)) := rfl

/-- Settles O42: an empty stack underflows before the emit; otherwise the event follows the earlier ones. -/
theorem printEmitsTheTop : Obligations.PrintEmitsTheTop := by
  refine ⟨⟨fun _ => rfl, rfl, rfl⟩, fun s ⟨hr, hsp⟩ => ⟨fun xs x hlive => ?_, fun hlive => ?_⟩⟩
  · obtain ⟨u, hpop, hu⟩ := popThen_top (.of_live hsp hlive) hr fun a s1 => .next (emit a s1)
    obtain ⟨hleaves, hout, hrand, hdraws⟩ := hu.leaves 1
    rw [hr] at hleaves
    have hevent : (endStep 1 (emit x u)).out = s.out ++ [x] := congrArg (· ++ [x]) hout
    refine ⟨endStep 1 (emit x u), by rw [exec_print, hpop, finish_next], hleaves, hevent, ?_, hrand, hdraws⟩
    rw [printEvent, hevent, List.drop_left]
    rfl
  · have hempty := OnlyStack.of_live hsp hlive
    exact .of_onlyStack (exec_print s) (popThen_empty hempty _) hempty

/-! ## Rand -/

/-- `Rand` pushes the draw in the state that the draw left (R136). -/
theorem exec_rand (s : State) : exec .rand s = finish 1 (push (drawRand s).1 (drawRand s).2) := rfl

/-- The draw reaches the random source and the count of free values, and nothing else (R136). -/
theorem drawRand_snd (s : State) :
    (drawRand s).2 = { s with randData := (drawRand s).2.randData, draws := (drawRand s).2.draws } := by
  unfold drawRand
  split <;> rfl

/-- The draw is the next supplied word, or a free value where none is supplied (D18). -/
theorem drawRand_cases (s : State) :
    s.randData = (drawRand s).1 :: (drawRand s).2.randData ∧ (drawRand s).2.draws = s.draws ∨
      s.randData = [] ∧ (drawRand s).2.randData = [] ∧ (drawRand s).1 = Config.randDraw s.draws ∧
        (drawRand s).2.draws = s.draws + 1 := by
  cases h : s.randData with
  | nil =>
    rw [drawRand_free h]
    exact .inr ⟨rfl, h, rfl, rfl⟩
  | cons r rest =>
    rw [drawRand_supplied h]
    exact .inl ⟨rfl, rfl⟩

/-- What a step leaves as counted from the state that the draw left, it leaves as counted from the start (R136). -/
theorem Leaves.of_drawRand {s t : State} {pc : Word} {live : List Word} {st : RunState} {c : BreakCause}
    (h : Leaves (drawRand s).2 t pc live st c) : Leaves s t pc live st c := by
  rwa [drawRand_snd] at h

/-- Settles O43: the push of the draw finds room or a full stack, in a state that differs from `s` in the draw
alone. -/
theorem randPushesADraw : Obligations.RandPushesADraw := by
  refine ⟨⟨fun _ => rfl, rfl, rfl⟩, fun s ⟨hr, hsp⟩ =>
    ⟨(drawRand s).1, (drawRand s).2.randData, (drawRand s).2.draws, drawRand_cases s, ?_⟩⟩
  have hdrawn : OnlyStack (drawRand s).2 (drawRand s).2 (liveStack s) := by
    rw [drawRand_snd]
    exact ⟨rfl, hsp, rfl⟩
  refine ⟨fun hroom => ?_, fun hfull => ?_⟩
  · obtain ⟨u, hpush, hu⟩ := push_room (drawRand s).1 hdrawn (by simpa using hroom)
    obtain ⟨hleaves, hout, hdevices⟩ := hu.leaves 1
    rw [drawRand_pc, drawRand_runState, drawRand_cause, hr] at hleaves
    exact ⟨endStep 1 u, by rw [exec_rand, hpush, finish_next], .of_drawRand hleaves, by rw [hout, drawRand_out], hdevices⟩
  · have hpush := push_full (drawRand s).1 hdrawn (by simpa using hfull)
    obtain ⟨hleaves, hout, hdevices⟩ := hdrawn.leaves_broken .stackOverflow 1
    rw [drawRand_pc] at hleaves
    exact ⟨_, by rw [exec_rand, hpush, finish_next], .of_drawRand hleaves, by rw [hout, drawRand_out], hdevices⟩

end Sys2Proof.Machine
end

section
/-!
Rules over all instructions, from the statements of each: from a ready state an instruction underflows exactly when its
operands are missing, and overflows exactly when it grows a full stack (60_exceptions.md R144, R145).
-/

namespace Sys2Proof.Machine

/-! ## The two stack errors -/

/-- `i` answers from `s`, and if it breaks then with neither of the two stack errors. -/
def NoStackError (i : Instr) (s : State) : Prop :=
  ∃ t, exec i s = .next t ∧ (t.runState = .brk → t.cause ≠ .stackUnderflow ∧ t.cause ≠ .stackOverflow)

/-- `i` ends its step from `s` with a stack overflow and the live stack as it was. -/
def Overflows (i : Instr) (s : State) : Prop :=
  ∃ t, exec i s = .next t ∧ t.runState = .brk ∧ t.cause = .stackOverflow ∧ liveStack t = liveStack s

/-- How an instruction can treat the stack from a ready state, by the counts of its stack picture. -/
inductive StackOutcome (i : Instr) (s : State) : Prop where
  | underflow (hshort : (liveStack s).length < popCount i)
      (hbreaks : Breaks i s .stackUnderflow (s.pc + BitVec.ofNat 32 (instrLen i)) [])
  | overflow (hheld : popCount i ≤ (liveStack s).length) (hgrows : popCount i < pushCount i)
      (hfull : (liveStack s).length + 1 = s.cfg.stackCapacity) (hoverflows : Overflows i s)
  | neither (hheld : popCount i ≤ (liveStack s).length)
      (hroom : popCount i < pushCount i → (liveStack s).length + 1 < s.cfg.stackCapacity)
      (hnone : NoStackError i s)

/-- What a step leaves `Running` is no stack error. -/
theorem NoStackError.of_leaves {i : Instr} {s t : State} {pc : Word} {live : List Word} {c : BreakCause}
    (hexec : exec i s = .next t) (h : Leaves s t pc live .running c) : NoStackError i s := by
  obtain ⟨-, -, hr, -⟩ := h
  exact ⟨t, hexec, by simp [hr]⟩

theorem Completes.noStackError {i : Instr} {s : State} {pc : Word} {live : List Word}
    (h : Completes i s pc live) : NoStackError i s := by
  obtain ⟨t, hexec, hleaves, -⟩ := h
  exact .of_leaves hexec hleaves

/-- A break with another cause is no stack error. -/
theorem Breaks.noStackError {i : Instr} {s : State} {c : BreakCause} {pc : Word} {live : List Word}
    (h : Breaks i s c pc live) (hc : c ≠ .stackUnderflow ∧ c ≠ .stackOverflow) : NoStackError i s := by
  obtain ⟨t, hexec, ⟨-, -, -, hcause, -⟩, -⟩ := h
  exact ⟨t, hexec, fun _ => hcause ▸ hc⟩

theorem Breaks.overflows {i : Instr} {s : State} {pc : Word} (h : Breaks i s .stackOverflow pc (liveStack s)) :
    Overflows i s := by
  obtain ⟨t, hexec, ⟨-, hlive, hr, hcause, -⟩, -⟩ := h
  exact ⟨t, hexec, hr, hcause, hlive⟩

/-! ## Stacks that hold n entries -/

theorem exists_snoc_one {l : List Word} (h : 1 ≤ l.length) : ∃ xs x, l = xs ++ [x] := by
  have hne := List.ne_nil_of_length_pos h
  exact ⟨l.dropLast, l.getLast hne, (List.dropLast_append_getLast hne).symm⟩

theorem exists_snoc_two {l : List Word} (h : 2 ≤ l.length) : ∃ xs x y, l = xs ++ [x, y] := by
  obtain ⟨x, y, hxy⟩ := List.length_eq_two.1 (show (l.drop (l.length - 2)).length = 2 by simp; omega)
  exact ⟨l.take (l.length - 2), x, y, by rw [← hxy, List.take_append_drop]⟩

theorem exists_snoc_three {l : List Word} (h : 3 ≤ l.length) : ∃ xs x y z, l = xs ++ [x, y, z] := by
  obtain ⟨x, y, z, hxyz⟩ := List.length_eq_three.1 (show (l.drop (l.length - 3)).length = 3 by simp; omega)
  exact ⟨l.take (l.length - 3), x, y, z, by rw [← hxyz, List.take_append_drop]⟩

/-! ## The outcome of each family -/

section
variable {i : Instr} {s : State}

/-- An instruction that cannot overflow and that errs on missing operands alone. -/
theorem stackOutcome_of_not_growing (hgrows : pushCount i ≤ popCount i)
    (hshort : (liveStack s).length < popCount i →
      Breaks i s .stackUnderflow (s.pc + BitVec.ofNat 32 (instrLen i)) [])
    (hheld : popCount i ≤ (liveStack s).length → NoStackError i s) : StackOutcome i s := by
  obtain hlt | hle := Nat.lt_or_ge (liveStack s).length (popCount i)
  · exact .underflow hlt (hshort hlt)
  · exact .neither hle (fun h => absurd h (Nat.not_lt.2 hgrows)) (hheld hle)

/-- An instruction that grows the stack. -/
theorem stackOutcome_of_growing (hs : Ready s) (hgrows : popCount i < pushCount i)
    (hshort : (liveStack s).length < popCount i →
      Breaks i s .stackUnderflow (s.pc + BitVec.ofNat 32 (instrLen i)) [])
    (hfull : popCount i ≤ (liveStack s).length → (liveStack s).length + 1 = s.cfg.stackCapacity → Overflows i s)
    (hroom : popCount i ≤ (liveStack s).length → (liveStack s).length + 1 < s.cfg.stackCapacity →
      NoStackError i s) : StackOutcome i s := by
  obtain hlt | hle := Nat.lt_or_ge (liveStack s).length (popCount i)
  · exact .underflow hlt (hshort hlt)
  · obtain hcap | hcap := (OnlyStack.refl hs.2).length_le.lt_or_eq
    · exact .neither hle (fun _ => hcap) (hroom hle hcap)
    · exact .overflow hle hgrows hcap (hfull hle hcap)

/-- An instruction that pops one entry and does not grow the stack. -/
theorem stackOutcome_of_popOne (hpop : popCount i = 1) (hpush : pushCount i ≤ 1)
    (hempty : liveStack s = [] → Breaks i s .stackUnderflow (s.pc + BitVec.ofNat 32 (instrLen i)) [])
    (htop : ∀ xs x, liveStack s = xs ++ [x] → NoStackError i s) : StackOutcome i s := by
  refine stackOutcome_of_not_growing (hpop ▸ hpush) (fun hlt => ?_) fun hle => ?_
  · exact hempty (List.length_eq_zero_iff.1 (by omega))
  · obtain ⟨xs, x, hlive⟩ := exists_snoc_one (hpop ▸ hle)
    exact htop xs x hlive

/-- An instruction that pops two entries and does not grow the stack. -/
theorem stackOutcome_of_popTwo (hpop : popCount i = 2) (hpush : pushCount i ≤ 2)
    (hshort : (liveStack s).length < 2 → Breaks i s .stackUnderflow (s.pc + BitVec.ofNat 32 (instrLen i)) [])
    (htop : ∀ xs x y, liveStack s = xs ++ [x, y] → NoStackError i s) : StackOutcome i s := by
  refine stackOutcome_of_not_growing (hpop ▸ hpush) (fun hlt => hshort (hpop ▸ hlt)) fun hle => ?_
  obtain ⟨xs, x, y, hlive⟩ := exists_snoc_two (hpop ▸ hle)
  exact htop xs x y hlive

/-- An instruction that pops nothing and pushes nothing. -/
theorem stackOutcome_of_noOperands (hpop : popCount i = 0) (hpush : pushCount i = 0) (h : NoStackError i s) :
    StackOutcome i s :=
  .neither (hpop ▸ Nat.zero_le _) (fun hgrows => absurd hgrows (by omega)) h

theorem stackOutcome_unary {f : Word → Word} (he : exec i s = finish 1 (unary f s)) (hs : Ready s)
    (hpop : popCount i = 1) (hpush : pushCount i = 1) (hlen : instrLen i = 1) : StackOutcome i s :=
  stackOutcome_of_popOne hpop hpush.le (fun hlive => hlen ▸ breaks_unary he hs.2 hlive)
    fun _ _ hlive => (completes_unary he hs hlive).noStackError

theorem stackOutcome_binary {f : Word → Word → Word} (he : exec i s = finish 1 (binary f s)) (hs : Ready s)
    (hpop : popCount i = 2) (hpush : pushCount i = 1) (hlen : instrLen i = 1) : StackOutcome i s :=
  stackOutcome_of_popTwo hpop (by omega) (fun hshort => hlen ▸ breaks_binary he hs hshort)
    fun _ _ _ hlive => (completes_binary he hs hlive).noStackError

theorem stackOutcome_shift {f : Word → Word → Word} (he : exec i s = finish 1 (shift f s)) (hs : Ready s)
    (hpop : popCount i = 2) (hpush : pushCount i = 1) (hlen : instrLen i = 1) : StackOutcome i s := by
  refine stackOutcome_of_popTwo hpop (by omega) (fun hshort => hlen ▸ breaks_shift he hs hshort)
    fun xs x y hlive => ?_
  obtain hx | hx := Nat.lt_or_ge x.toNat 32
  · exact (completes_shift he hs hlive hx).noStackError
  · obtain ⟨t, hexec, hleaves, -⟩ := leaves_shift_large he hs hlive hx
    exact .of_leaves hexec hleaves

theorem stackOutcome_condJump {c : Word → Bool} {imm : Int} (he : exec i s = finish 2 (condJump c imm s))
    (hs : Ready s) (hpop : popCount i = 1) (hpush : pushCount i = 0) (hlen : instrLen i = 2) :
    StackOutcome i s := by
  refine stackOutcome_of_popOne hpop (by omega) (fun hlive => hlen ▸ breaks_condJump he hs.2 hlive)
    fun xs x hlive => ?_
  cases hc : c x with
  | true => exact (completes_condJump_taken he hs hlive hc).noStackError
  | false => exact (completes_condJump_not_taken he hs hlive hc).noStackError

end

section
variable {s : State}

theorem stackOutcome_print (hs : Ready s) : StackOutcome .print s := by
  obtain ⟨htop, hempty⟩ := printEmitsTheTop.2 s hs
  refine stackOutcome_of_popOne rfl (Nat.zero_le _) hempty fun xs x hlive => ?_
  obtain ⟨t, hexec, hleaves, -⟩ := htop xs x hlive
  exact .of_leaves hexec hleaves

theorem stackOutcome_drop (hs : Ready s) : StackOutcome .drop s := by
  obtain ⟨htop, hempty⟩ := dropDiscardsTheTop.2.2 s hs
  exact stackOutcome_of_popOne rfl (Nat.zero_le _) hempty fun xs x hlive => (htop xs x hlive).noStackError

/-- A list longer than n has an entry with exactly n entries after it. -/
theorem exists_entry_at_depth {l : List Word} {n : Nat} (h : n < l.length) :
    ∃ xs v ys, l = xs ++ [v] ++ ys ∧ n = ys.length := by
  refine ⟨l.take (l.length - (n + 1)), l[l.length - (n + 1)], l.drop (l.length - (n + 1) + 1), ?_, ?_⟩
  · rw [List.take_concat_get', List.take_append_drop]
  · rw [List.length_drop]
    omega

theorem stackOutcome_pick (hs : Ready s) : StackOutcome .pick s := by
  obtain ⟨hentry, hdeep, hempty⟩ := pickCopiesTheEntryAtDepth.2 s hs
  refine stackOutcome_of_popOne rfl le_rfl hempty fun xs n hlive => ?_
  obtain hn | hn := Nat.lt_or_ge n.toNat xs.length
  · obtain ⟨ws, v, ys, rfl, hdepth⟩ := exists_entry_at_depth hn
    exact (hentry ws v ys n hlive hdepth).noStackError
  · exact (hdeep xs n hlive hn).noStackError (by decide)

theorem stackOutcome_mod (hs : Ready s) : StackOutcome .mod s := by
  obtain ⟨htop, hshort⟩ := modIsTopModuloSecond.2 s hs
  refine stackOutcome_of_popTwo rfl (by decide) hshort fun xs x y hlive => ?_
  obtain ⟨hnonzero, hzero⟩ := htop xs x y hlive
  by_cases hx : x = 0
  · exact (hzero hx).noStackError (by decide)
  · exact (hnonzero hx).noStackError

theorem stackOutcome_swap (hs : Ready s) : StackOutcome .swap s := by
  obtain ⟨htop, hshort⟩ := swapExchangesTheTopTwo.2 s hs
  exact stackOutcome_of_popTwo rfl le_rfl hshort fun xs x y hlive => (htop xs x y hlive).noStackError

theorem stackOutcome_rot (hs : Ready s) : StackOutcome .rot s := by
  obtain ⟨htop, hshort⟩ := rotMovesTheTopToThird.2 s hs
  refine stackOutcome_of_not_growing le_rfl hshort fun hle => ?_
  obtain ⟨xs, x, y, z, hlive⟩ := exists_snoc_three hle
  exact (htop xs x y z hlive).noStackError

/-! ## The instructions that grow the stack -/

theorem stackOutcome_push (imm : Int) (hs : Ready s) : StackOutcome (.push imm) s := by
  have ⟨hr, hsp⟩ := hs
  refine stackOutcome_of_growing hs Nat.zero_lt_one (fun hlt => absurd hlt (Nat.not_lt_zero _))
    (fun _ hfull => ?_) fun _ hroom => ?_
  · have hpush := push_full (u32 imm) (.refl hsp) hfull
    exact (Breaks.of_onlyStack (exec_push imm s) hpush (.refl hsp)).overflows
  · obtain ⟨u, hpush, hu⟩ := push_room (u32 imm) (.refl hsp) hroom
    exact (Completes.of_onlyStack (exec_push imm s) hr hpush hu).noStackError

theorem stackOutcome_rand (hs : Ready s) : StackOutcome .rand s := by
  obtain ⟨r, rest, n, -, hroom, hfull⟩ := randPushesADraw.2 s hs
  refine stackOutcome_of_growing hs Nat.zero_lt_one (fun hlt => absurd hlt (Nat.not_lt_zero _))
    (fun _ h => ?_) fun _ h => ?_
  · obtain ⟨t, hexec, ⟨-, hlive, hr, hcause, -⟩, -⟩ := hfull h
    exact ⟨t, hexec, hr, hcause, hlive⟩
  · obtain ⟨t, hexec, hleaves, -⟩ := hroom h
    exact .of_leaves hexec hleaves

theorem stackOutcome_dup (hs : Ready s) : StackOutcome .dup s := by
  obtain ⟨htop, hempty⟩ := dupDoublesTheTop.2 s hs
  refine stackOutcome_of_growing hs (by decide) (fun hlt => hempty (List.length_eq_zero_iff.1 (Nat.lt_one_iff.1 hlt)))
    (fun hle hfull => ?_) fun hle hroom => ?_
  · obtain ⟨xs, x, hlive⟩ := exists_snoc_one hle
    have hbreaks := (htop xs x hlive).2 (by simpa [hlive] using hfull)
    rw [← hlive] at hbreaks
    exact hbreaks.overflows
  · obtain ⟨xs, x, hlive⟩ := exists_snoc_one hle
    exact ((htop xs x hlive).1 (by simpa [hlive] using hroom)).noStackError

theorem stackOutcome_ovr (hs : Ready s) : StackOutcome .ovr s := by
  obtain ⟨htop, hshort⟩ := overCopiesTheSecond.2 s hs
  refine stackOutcome_of_growing hs (by decide) hshort (fun hle hfull => ?_) fun hle hroom => ?_
  · obtain ⟨xs, x, y, hlive⟩ := exists_snoc_two hle
    have hbreaks := (htop xs x y hlive).2 (by simpa [hlive] using hfull)
    rw [← hlive] at hbreaks
    exact hbreaks.overflows
  · obtain ⟨xs, x, y, hlive⟩ := exists_snoc_two hle
    exact ((htop xs x y hlive).1 (by simpa [hlive] using hroom)).noStackError

/-- From a ready state every instruction treats the stack in one of the three ways. -/
theorem stackOutcome (i : Instr) (hs : Ready s) : StackOutcome i s := by
  have hr := hs.1
  cases i
  case nop => exact stackOutcome_of_noOperands rfl rfl (nopHasNoEffect.2 s hr).noStackError
  case halt => exact stackOutcome_of_noOperands rfl rfl ⟨_, exec_halt s, by simp⟩
  case jump imm => exact stackOutcome_of_noOperands rfl rfl (completes_jump imm hr).noStackError
  case brk =>
    have hbreaks : Breaks .brk s .explicitBreak (s.pc + 1) (liveStack s) :=
      ⟨_, execDecoded_break (d := .instr .brk) hr rfl, leaves_broken s .explicitBreak 1⟩
    exact stackOutcome_of_noOperands rfl rfl (hbreaks.noStackError (by decide))
  case unrecognized w =>
    exact stackOutcome_of_noOperands rfl rfl ((breaks_unrecognized hr w).noStackError (by decide))
  case print => exact stackOutcome_print hs
  case drop => exact stackOutcome_drop hs
  case inc => exact stackOutcome_unary (exec_inc s) hs rfl rfl rfl
  case dec => exact stackOutcome_unary (exec_dec s) hs rfl rfl rfl
  case sqrt => exact stackOutcome_unary (exec_sqrt s) hs rfl rfl rfl
  case add => exact stackOutcome_binary (exec_add s) hs rfl rfl rfl
  case sub => exact stackOutcome_binary (exec_sub s) hs rfl rfl rfl
  case mul => exact stackOutcome_binary (exec_mul s) hs rfl rfl rfl
  case and => exact stackOutcome_binary (exec_and s) hs rfl rfl rfl
  case or => exact stackOutcome_binary (exec_or s) hs rfl rfl rfl
  case xor => exact stackOutcome_binary (exec_xor s) hs rfl rfl rfl
  case shl => exact stackOutcome_shift (exec_shl s) hs rfl rfl rfl
  case shr => exact stackOutcome_shift (exec_shr s) hs rfl rfl rfl
  case je imm => exact stackOutcome_condJump (exec_je imm s) hs rfl rfl rfl
  case jne imm => exact stackOutcome_condJump (exec_jne imm s) hs rfl rfl rfl
  case pick => exact stackOutcome_pick hs
  case mod => exact stackOutcome_mod hs
  case swap => exact stackOutcome_swap hs
  case rot => exact stackOutcome_rot hs
  case push imm => exact stackOutcome_push imm hs
  case rand => exact stackOutcome_rand hs
  case dup => exact stackOutcome_dup hs
  case ovr => exact stackOutcome_ovr hs

end

/-! ## Underflow and overflow -/

/-- Settles O44: of the three outcomes only the first underflows, and only the first is short of operands. -/
theorem underflowExactlyWhenOperandsAreMissing : Obligations.UnderflowExactlyWhenOperandsAreMissing := by
  intro s i hs
  obtain ⟨hshort, hbreaks⟩ | ⟨hheld, -, -, u, hu, -, hcause, -⟩ | ⟨hheld, -, u, hu, hnone⟩ := stackOutcome i hs
  · exact ⟨fun _ => hbreaks, fun _ _ _ _ => hshort⟩
  · refine ⟨fun hshort => absurd hshort (Nat.not_lt.2 hheld), fun t ht _ hunder => ?_⟩
    cases hu.symm.trans ht
    simp [hcause] at hunder
  · refine ⟨fun hshort => absurd hshort (Nat.not_lt.2 hheld), fun t ht hbrk hunder => ?_⟩
    cases hu.symm.trans ht
    exact absurd hunder (hnone hbrk).1

/-- Settles O45: of the three outcomes only the second overflows, and only the second holds the operands of a growing
instruction on a full stack. -/
theorem overflowExactlyOnAFullStack : Obligations.OverflowExactlyOnAFullStack := by
  intro s i t hs ht
  obtain ⟨hshort, u, hu, ⟨-, -, -, hcause, -⟩, -⟩ | ⟨hheld, hgrows, hfull, u, hu, hbrk, hcause, hlive⟩ |
    ⟨hheld, hroom, u, hu, hnone⟩ := stackOutcome i hs
  all_goals cases hu.symm.trans ht
  · refine ⟨⟨fun ⟨_, h⟩ => ?_, fun ⟨_, hle, _⟩ => absurd hshort (Nat.not_lt.2 hle)⟩, fun _ h => ?_⟩ <;>
      simp [hcause] at h
  · exact ⟨⟨fun _ => ⟨hfull, hheld, hgrows⟩, fun _ => ⟨hbrk, hcause⟩⟩, fun _ _ => hlive⟩
  · refine ⟨⟨fun ⟨hbrk, h⟩ => absurd h (hnone hbrk).2, fun ⟨hfull, _, hgrows⟩ => ?_⟩,
      fun hbrk h => absurd h (hnone hbrk).2⟩
    exact absurd hfull (hroom hgrows).ne

end Sys2Proof.Machine
end

section
/-!
Frames, in any state: the stack slots an instruction can write, what it leaves of the devices, and how state and cause
can change in a step (20_memory.md R54; 40_sequencer.md R87, R105-R109; 60_exceptions.md R140).
-/

namespace Sys2Proof.Machine

/-! ## The slots a chain of primitives writes -/

/-- From s to t no stack entry changed but those above `lo` and at most `hi`. -/
def WritesOnly (lo hi : Int) (s t : State) : Prop :=
  ∀ k : Nat, ¬ (lo < k ∧ (k : Int) ≤ hi) → stackEntry t k = stackEntry s k

theorem s32_lt (w : Word) : s32 w < 2 ^ 31 := BitVec.toInt_lt

section
variable {lo hi : Int} {s t u : State} {v : Word}

theorem WritesOnly.trans (h : WritesOnly lo hi s u) (g : WritesOnly lo hi u t) : WritesOnly lo hi s t :=
  fun k hk => (g k hk).trans (h k hk)

/-- The random source writes nothing (R136). -/
theorem WritesOnly.drawRand (s : State) : WritesOnly lo hi s (drawRand s).2 := fun k _ => by
  rw [stackEntry, stackEntry, drawRand_stack, drawRand_powerOn]

/-- The draw of a large shift writes nothing (R130, R131). -/
theorem WritesOnly.drawShift (s : State) : WritesOnly lo hi s (drawShift s).2 := fun _ _ => rfl

/-- A pop writes nothing (R88). -/
theorem WritesOnly.pop (h : pop s = .next (v, u)) : WritesOnly lo hi s u := fun k _ => stackEntry_of_pop h k

/-- A push writes at most the slot above sp (R87). -/
theorem WritesOnly.push (h : push v s = .next u) (hlo : lo ≤ s32 s.sp := by omega)
    (hhi : s32 s.sp + 1 ≤ hi := by omega) : WritesOnly lo hi s u := by
  obtain ⟨-, rfl⟩ | ⟨hpos, -, rfl⟩ := push_eq_next h
  · exact fun _ _ => rfl
  · intro k hk
    rw [stackEntry_memWrite, if_neg (by omega)]

/-- A checked pop writes what its continuation writes, which runs only after a pop that moved sp down (R88, R91). -/
theorem WritesOnly.popThen {k : Word → State → Result State}
    (hk : ∀ v u, 0 ≤ s32 s.sp → s32 u.sp = s32 s.sp - 1 → k v u = .next t → WritesOnly lo hi u t)
    (h : popThen s k = .next t) : WritesOnly lo hi s t := by
  obtain ⟨v, u, hpop, ⟨hr, hnext⟩ | ⟨-, rfl⟩⟩ := popThen_eq_next h
  · refine (WritesOnly.pop hpop).trans ?_
    obtain ⟨-, -, rfl⟩ | ⟨hpos, -, rfl⟩ := pop_eq_next hpop
    · simp at hr
    · exact hk v _ hpos (s32_sub_one (by omega)) hnext
  · exact .pop hpop

/-- Two checked pops write what their continuation writes. -/
theorem WritesOnly.popTwo {k : Word → Word → State → Result State}
    (hk : ∀ a b u, 1 ≤ s32 s.sp → s32 u.sp = s32 s.sp - 2 → k a b u = .next t → WritesOnly lo hi u t)
    (h : popTwo s k = .next t) : WritesOnly lo hi s t :=
  WritesOnly.popThen (fun a _ _ hu => WritesOnly.popThen fun b w hpos hw => hk a b w (by omega) (by omega)) h

/-- A checked push writes the slot above sp and what its continuation writes (R87). -/
theorem WritesOnly.pushThen {k : State → Result State}
    (hk : ∀ u, s32 u.sp = s32 s.sp + 1 → k u = .next t → WritesOnly lo hi u t) (h : pushThen v s k = .next t)
    (hlo : lo ≤ s32 s.sp := by omega) (hhi : s32 s.sp + 1 ≤ hi := by omega)
    (hmax : s32 s.sp < 2 ^ 31 - 1 := by omega) : WritesOnly lo hi s t := by
  obtain ⟨u, hpush, ⟨hr, hnext⟩ | ⟨-, rfl⟩⟩ := pushThen_eq_next h
  · refine (WritesOnly.push hpush).trans ?_
    obtain ⟨-, rfl⟩ | ⟨-, -, rfl⟩ := push_eq_next hpush
    · simp at hr
    · exact hk _ (s32_add_one hmax) hnext
  · exact .push hpush

/-- A checked pick writes what its continuation writes, from the same state (R89). -/
theorem WritesOnly.pickThen {n : Word} {k : Word → State → Result State}
    (hk : ∀ v, k v s = .next t → WritesOnly lo hi s t) (h : pickThen n s k = .next t) : WritesOnly lo hi s t := by
  obtain ⟨v, u, hpick, ⟨hr, hnext⟩ | ⟨-, rfl⟩⟩ := pickThen_eq_next h
  · obtain ⟨-, rfl⟩ | ⟨-, rfl⟩ := pickAt_eq_next hpick
    · simp at hr
    · exact hk v hnext
  · obtain ⟨-, rfl⟩ | ⟨-, rfl⟩ := pickAt_eq_next hpick <;> exact fun _ _ => rfl

end

/-- An instruction writes no slot but those its pushes reach once its pops are done (R54, R87). -/
theorem exec_writesOnly {i : Instr} {s t : State} (h : exec i s = .next t) :
    WritesOnly (s32 s.sp - popCount i) (s32 s.sp - popCount i + pushCount i) s t := by
  have hmax := s32_lt s.sp
  cases i <;> simp only [popCount, pushCount]
  case nop | halt | jump =>
    cases h
    exact fun _ _ => rfl
  case brk | unrecognized => obtain rfl | rfl := runBreak_eq_next h <;> exact fun _ _ => rfl
  all_goals
    obtain ⟨u, hu, rfl⟩ := finish_eq_next h
    change WritesOnly _ _ s u
  case push => exact .push hu
  case rand =>
    exact (WritesOnly.drawRand s).trans (.push hu (by rw [drawRand_sp]; omega) (by rw [drawRand_sp]; omega))
  case print | drop => exact .popThen (fun a w _ _ hw => by cases hw; exact fun _ _ => rfl) hu
  case je | jne =>
    refine .popThen (fun a w _ _ hw => ?_) hu
    cases hw
    split <;> exact fun _ _ => rfl
  case inc | dec | sqrt => exact .popThen (fun a w _ _ hw => .push hw) hu
  case add | sub | mul | and | or | xor => exact .popTwo (fun a b w _ _ hw => .push hw) hu
  case mod =>
    refine .popTwo (fun a b w _ _ hw => ?_) hu
    split at hw
    · cases hw
      exact fun _ _ => rfl
    · exact .push hw
  case shl | shr =>
    refine .popTwo (fun a b w _ _ hw => ?_) hu
    split at hw
    · exact .push hw
    · exact (WritesOnly.drawShift w).trans (.push hw (by rw [drawShift_sp]; omega) (by rw [drawShift_sp]; omega))
  case pick => exact .popThen (fun n w _ _ hw => .pickThen (fun v hv => .push hv) hw) hu
  case dup => exact .popThen (fun a w _ _ hw => .pushThen (fun x _ hx => .push hx) hw) hu
  case swap => exact .popTwo (fun a b w _ _ hw => .pushThen (fun x _ hx => .push hx) hw) hu
  case ovr =>
    exact .popTwo (fun a b w _ _ hw => .pushThen (fun x _ hx => .pushThen (fun y _ hy => .push hy) hx) hw) hu
  case rot =>
    exact .popTwo (fun a b w _ _ hw => .popThen (fun c x _ _ hx =>
      .pushThen (fun y _ hy => .pushThen (fun z _ hz => .push hz) hy) hx) hw) hu

/-- Settles O47: `exec_writesOnly` is the statement. -/
theorem instructionsWriteOnlyTheirStackSlots : Obligations.InstructionsWriteOnlyTheirStackSlots :=
  fun _ _ _ h => exec_writesOnly h

/-- An instruction with an empty stack picture has no primitive that moves sp. -/
theorem exec_sp_of_noOperands {i : Instr} {s t : State} (h : exec i s = .next t) (hpop : popCount i = 0)
    (hpush : pushCount i = 0) : t.sp = s.sp := by
  cases i
  case nop | halt | jump =>
    cases h
    rfl
  case brk | unrecognized => obtain rfl | rfl := runBreak_eq_next h <;> rfl
  case push | rand => cases hpush
  all_goals cases hpop

/-- Settles O48: with no slot to write every entry stays, and sp does not move. -/
theorem instructionsWithoutOperandsKeepTheStack : Obligations.InstructionsWithoutOperandsKeepTheStack := by
  intro i s t h hpop hpush
  have hentry : ∀ k, stackEntry t k = stackEntry s k := fun k => exec_writesOnly h k (by omega)
  have hsp := exec_sp_of_noOperands h hpop hpush
  exact ⟨hsp, hentry, liveStack_congr hsp fun k _ => hentry k⟩

/-! ## The devices -/

/-- A move of sp, the stack, state and cause reaches no device. -/
theorem StackMove.sameDevices {s u : State} (h : StackMove s u) : SameDevices s u := by
  rw [h]
  exact ⟨rfl, rfl, rfl⟩

/-- Settles O49: the handlers of `Print`, `Rand` and the two shifts are the ones with an effect on a device. -/
theorem onlyDeviceInstructionsReachTheDevices : Obligations.OnlyDeviceInstructionsReachTheDevices := by
  intro i s t h
  obtain ⟨u, hu, rfl⟩ := exec_effect h
  cases i
  case print =>
    obtain ⟨hmove, hout⟩ := hu
    obtain ⟨-, hrand, hdraws⟩ := hmove.sameDevices
    exact ⟨fun hne => absurd rfl hne, hout, fun _ => hrand, fun _ _ _ => hdraws⟩
  case halt =>
    cases hu
    exact ⟨fun _ => rfl, .inl rfl, fun _ => rfl, fun _ _ _ => rfl⟩
  all_goals
    change StackMove _ u at hu
    obtain ⟨hout, hrand, hdraws⟩ := hu.sameDevices
  case rand => exact ⟨fun _ => hout, .inl hout, fun hne => absurd rfl hne, fun hne => absurd rfl hne⟩
  case shl => exact ⟨fun _ => hout, .inl hout, fun _ => hrand, fun _ hne => absurd rfl hne⟩
  case shr => exact ⟨fun _ => hout, .inl hout, fun _ => hrand, fun _ _ hne => absurd rfl hne⟩
  all_goals exact ⟨fun _ => hout, .inl hout, fun _ => hrand, fun _ _ _ => hdraws⟩

/-! ## State and cause -/

/-- Still `Running` with the cause c, or broken with a cause. -/
def RunningOrBroken (c : BreakCause) (s : State) : Prop :=
  (s.runState = .running ∧ s.cause = c) ∨ (s.runState = .brk ∧ s.cause ≠ .noCause)

/-- A move of a handler breaks with a cause or leaves state and cause as they were (R140). -/
theorem RunningOrBroken.move {c : BreakCause} {s t : State} (hm : Move s t) (h : RunningOrBroken c s) :
    RunningOrBroken c t := by
  cases hm with
  | popped hpop =>
    obtain ⟨-, -, rfl⟩ | ⟨-, -, rfl⟩ := pop_eq_next hpop
    · exact .inr ⟨rfl, by simp⟩
    · exact h
  | pushed hpush =>
    obtain ⟨-, rfl⟩ | ⟨-, -, rfl⟩ := push_eq_next hpush
    · exact .inr ⟨rfl, by simp⟩
    · exact h
  | raised _ c hc => exact .inr ⟨rfl, hc⟩
  | drewRand => rwa [RunningOrBroken, drawRand_runState, drawRand_cause]
  | emitted | drewShift | jumped => exact h

/-- Settles O50: `Halt` apart, an instruction is its moves, and the end of step touches neither state nor cause. -/
theorem oneTransitionPerStep : Obligations.OneTransitionPerStep := by
  intro i s t hr h
  by_cases hi : i = .halt
  · subst hi
    cases h
    exact .inr (.inl ⟨rfl, rfl, rfl⟩)
  · obtain ⟨u, hmoves, rfl⟩ := exec_moves hi h
    have hu : RunningOrBroken s.cause u := hmoves.keeps (fun _ _ => RunningOrBroken.move) (.inl ⟨hr, rfl⟩)
    exact hu.imp_right .inr

/-- Settles O52: an instruction that writes the cause breaks, by `oneTransitionPerStep`, and so do the two decodings
that stand for no instruction. -/
theorem causeIsWrittenOnce : Obligations.CauseIsWrittenOnce := by
  intro s t hstep hne
  obtain ⟨-, rfl⟩ | ⟨ha, i, -, hexec⟩ | ⟨ha, c, -, rfl⟩ := step_eq_next hstep
  · exact absurd rfl hne
  · obtain ⟨-, hr, -⟩ := (stepAllowed_iff s).1 ha
    obtain ⟨-, hcause⟩ | ⟨-, -, hcause⟩ | ⟨hbrk, -⟩ := oneTransitionPerStep i s t hr hexec
    · exact absurd hcause hne
    · exact absurd hcause hne
    · exact ⟨hr, hbrk⟩
  · obtain ⟨-, hr, -⟩ := (stepAllowed_iff s).1 ha
    exact ⟨hr, rfl⟩

end Sys2Proof.Machine
end

section
/-!
Whole runs: both strategies end them in the same states, where no step may begin, within the budget
(40_sequencer.md R96-R102).
-/

namespace Sys2Proof.Machine

/-- Settles O56: `runLoop_eq_runHandlers` is the induction on the bound. -/
theorem strategiesAgree : Obligations.StrategiesAgree := runLoop_eq_runHandlers

/-- A central loop that ends in a next state ends where no step may begin, and what every step keeps, it keeps (R96,
R98). -/
theorem runLoop_ends {P : State → Prop} (hP : ∀ s t, P s → step s = .next t → P t) {fuel : Nat} {s t : State}
    (hs : P s) (h : runLoop fuel s = some (.next t)) : stepAllowed t = false ∧ P t := by
  induction fuel generalizing s with
  | zero =>
    cases ha : stepAllowed s with
    | false =>
      cases (runLoop_of_not_stepAllowed ha 0).symm.trans h
      exact ⟨ha, hs⟩
    | true => simp [runLoop, ha] at h
  | succ n ih =>
    cases ha : stepAllowed s with
    | false =>
      cases (runLoop_of_not_stepAllowed ha (n + 1)).symm.trans h
      exact ⟨ha, hs⟩
    | true =>
      cases hstep : step s with
      | next u =>
        rw [runLoop_succ_of_step ha hstep] at h
        exact ih (hP s u hs hstep) h
      | fault | refused =>
        rw [step, stepOrIdle, if_pos ha] at hstep
        simp [runLoop, ha, hstep] at h

/-- A step writes no run input, also where none may begin (R20). -/
theorem sameInputs_of_step {s t : State} (h : step s = .next t) : SameInputs s t := by
  cases ha : stepAllowed s with
  | false =>
    cases (step_idle ha).symm.trans h
    exact ⟨rfl, rfl, rfl, rfl, rfl, rfl⟩
  | true => exact (step_sameInputs ha h).1

/-- The budget is not exceeded (R29, R97). -/
theorem State.Inv.steps_le {s : State} (h : s.Inv) : s.steps ≤ s.stepBudget := by
  obtain ⟨-, -, -, -, -, -, -, hle, -⟩ := h
  exact hle

/-- Settles O57: a started state that meets the invariant and allows no step is terminal or has used up its budget. -/
theorem runsEndTerminalOrAtTheBudget : Obligations.RunsEndTerminalOrAtTheBudget := by
  intro fuel s t hinv hstarted h
  rw [run_eq_runLoop] at h
  obtain ⟨hended, htinv, hstarted⟩ := runLoop_ends
    (P := fun u => u.Inv ∧ u.started = true)
    (fun s t ⟨hinv, hstarted⟩ hstep => by
      obtain ⟨-, -, -, -, hsame, -⟩ := sameInputs_of_step hstep
      exact ⟨stepKeepsTheInvariant s t hinv hstep, hsame.trans hstarted⟩)
    ⟨hinv, hstarted⟩ h
  refine ⟨hended, ?_⟩
  cases hr : t.runState with
  | halted => exact .inl rfl
  | brk => exact .inr (.inl rfl)
  | running =>
    have hle := htinv.steps_le
    have hlt : ¬ t.steps < t.stepBudget := fun hlt => by
      simp [(stepAllowed_iff t).2 ⟨hstarted, hr, hlt⟩] at hended
    exact .inr (.inr ⟨rfl, by bv_omega⟩)

/-- With as much fuel as the budget has left, the central loop ends in a next state: each step counts (R97). -/
theorem runLoop_answers {s : State} (h : s.Inv) {n : Nat} (hn : s.steps.toNat + n = s.stepBudget.toNat) :
    ∃ t, runLoop n s = some (.next t) := by
  induction n generalizing s with
  | zero =>
    have hended : stepAllowed s = false := by simp [stepAllowed, BitVec.eq_of_toNat_eq hn]
    exact ⟨s, runLoop_of_not_stepAllowed hended 0⟩
  | succ k ih =>
    cases ha : stepAllowed s with
    | false => exact ⟨s, runLoop_of_not_stepAllowed ha (k + 1)⟩
    | true =>
      obtain ⟨t, hstep⟩ := stepNeverReachesOutsideTheArrays s h
      obtain ⟨⟨-, -, hbudget, -⟩, hsteps⟩ := step_sameInputs ha hstep
      rw [runLoop_succ_of_step ha hstep]
      refine ih (stepKeepsTheInvariant s t h hstep) ?_
      rw [hbudget, hsteps]
      bv_omega

/-- Settles O58: `runLoop_answers` ends the run, and the invariant, with the budget an input, bounds its count. -/
theorem theBudgetBoundsEveryRun : Obligations.TheBudgetBoundsEveryRun := by
  intro s hinv
  obtain ⟨t, ht⟩ := runLoop_answers hinv (Nat.add_sub_of_le hinv.steps_le)
  obtain ⟨-, htinv, hbudget⟩ := runLoop_ends
    (P := fun u => u.Inv ∧ u.stepBudget = s.stepBudget)
    (fun u w ⟨hu, hbudget⟩ hstep => by
      obtain ⟨-, -, hsame, -⟩ := sameInputs_of_step hstep
      exact ⟨stepKeepsTheInvariant u w hu hstep, hsame.trans hbudget⟩)
    ⟨hinv, rfl⟩ ht
  exact ⟨t, (run_eq_runLoop _ s).trans ht, hbudget, hbudget ▸ htinv.steps_le⟩

end Sys2Proof.Machine
end

section
/-!
The run start, the host's ports and the steps outside a run (10_state.md R37-R44; 70_reset_and_hazards.md R160-R167).
-/

namespace Sys2Proof.Machine

/-! ## The run start -/

/-- Settles O1: the fields of `State.reset`. -/
theorem resetIsTheRunStartState : Obligations.ResetIsTheRunStartState :=
  ⟨rfl, s32_neg_one, rfl, rfl, rfl, rfl, rfl, rfl⟩

/-- Settles O4: with an empty stack and an empty store the invariant is the bounds on the parameters and the default
map's injectivity. -/
theorem resetMeetsTheInvariant : Obligations.ResetMeetsTheInvariant := by
  unfold Obligations.ResetMeetsTheInvariant
  decide

/-- Outside a run a start answers the run-start state (R160, R165). -/
theorem hostStart_of_not_stepAllowed {s : State} (h : stepAllowed s = false) (b : Count) (d : Strategy) :
    hostStart b d s = some (runStart b d s) := by
  simp [hostStart, h]

/-- During a run the host has no start (R166). -/
theorem hostStart_of_stepAllowed {s : State} (h : stepAllowed s = true) (b : Count) (d : Strategy) :
    hostStart b d s = none := if_pos h

/-- The run-start state depends on the store, the parameters, the random source and the free values alone (R160,
R167). -/
theorem runStart_congr {s s' : State} (hcfg : s.cfg = s'.cfg) (hprog : s.prog = s'.prog)
    (hrand : s.randData = s'.randData) (hdraws : s.draws = s'.draws) (hpower : s.powerOn = s'.powerOn) (b : Count)
    (d : Strategy) : runStart b d s = runStart b d s' := by
  simp only [runStart, hcfg, hprog, hrand, hdraws, hpower]

/-- Settles O2: outside a run a start is `runStart`, and `runStart_congr` says what it depends on. -/
theorem startAppliesTheRunStartState : Obligations.StartAppliesTheRunStartState := by
  refine ⟨fun s b d h => ?_, fun s s' b d h h' hcfg hprog hrand hdraws hpower => ?_,
    fun s b d h => hostStart_of_stepAllowed h b d⟩
  · exact ⟨_, hostStart_of_not_stepAllowed h b d, rfl, s32_neg_one, rfl, rfl, rfl, rfl, rfl, rfl, rfl, rfl, rfl, rfl,
      rfl⟩
  · rw [hostStart_of_not_stepAllowed h, hostStart_of_not_stepAllowed h',
      runStart_congr hcfg hprog hrand hdraws hpower]

/-! ## The load port and the stack port -/

/-- During a run the load port writes nothing (R39). -/
theorem hostLoad_of_stepAllowed {s : State} (h : stepAllowed s = true) (a v : Word) : hostLoad a v s = s := if_pos h

/-- At or above PROGRAM_SIZE the load port writes nothing (R42). -/
theorem hostLoad_of_le {s : State} {a : Word} (h : s.cfg.programSize ≤ a.toNat) (v : Word) : hostLoad a v s = s := by
  simp [hostLoad, Nat.not_lt.2 h]

/-- Outside a run and below PROGRAM_SIZE the load port writes its cell (R39). -/
theorem hostLoad_of_lt {s : State} {a : Word} (h : stepAllowed s = false) (ha : a.toNat < s.cfg.programSize)
    (v : Word) : hostLoad a v s = { s with prog := memWrite s.prog a.toNat v } := by
  simp [hostLoad, h, ha]

/-- Reading a cell after a write of the store. -/
theorem progCell_memWrite (s : State) (a : Nat) (v : Word) (k : Nat) :
    progCell { s with prog := memWrite s.prog a v } k = if k = a then v else progCell s k := by
  simp only [progCell, memRead_memWrite]
  split <;> rfl

/-- Settles O3: the three cases of the port, the written one read through `progCell_memWrite`. -/
theorem loadPortWritesOneCell : Obligations.LoadPortWritesOneCell := by
  intro s a v
  refine ⟨fun h => hostLoad_of_stepAllowed h a v, fun h => hostLoad_of_le h v, fun h ha => ?_⟩
  rw [hostLoad_of_lt h ha]
  exact ⟨(progCell_memWrite s _ v _).trans (if_pos rfl),
    fun k hk => (progCell_memWrite s _ v k).trans (if_neg hk), rfl⟩

/-- Settles O60: both read the entries up to sp. -/
theorem stackPortReadsFinalState : Obligations.StackPortReadsFinalState := by
  intro s ⟨hlo, _⟩
  refine ⟨?_, fun a ha => ?_⟩
  · rw [finalState, length_liveStack]
    omega
  · rw [finalState, liveStack_getElem?, if_pos (by omega), stackOut, if_pos ha]

/-! ## Steps and words written out -/

/-- Settles O13: `step_outOfRange` is the step, which touches no stack entry and no device. -/
theorem stepBeyondTheStore : Obligations.StepBeyondTheStore :=
  fun s ha hpc => ⟨_, step_outOfRange ha hpc, leaves_broken s .pcOutOfRange 1⟩

/-- Settles O17: `stepAllowed_iff` says when a step may begin, elsewhere the step is idle, and outside `Running` a start
answers. -/
theorem noStepOutsideARun : Obligations.NoStepOutsideARun := by
  refine ⟨stepAllowed_iff, fun s h => step_idle ?_, fun s b d hr => ?_⟩
  · rw [← Bool.not_eq_true, stepAllowed_iff]
    rintro ⟨hstarted, hr, hlt⟩
    obtain hne | hle | hnot := h
    · exact hne hr
    · exact absurd hlt (BitVec.not_lt.2 hle)
    · simp [hstarted] at hnot
  · exact ⟨_, hostStart_of_not_stepAllowed (stepAllowed_eq_false_of_runState_ne hr) b d, rfl⟩

/-- Settles O55: each word is looked up in the default map. -/
theorem sampleWordsDecode : Obligations.SampleWordsDecode := by
  unfold Obligations.SampleWordsDecode
  decide

end Sys2Proof.Machine
end
